-- ==== Sys2Proof/Word.lean ====
section
/-!
DEFINITION. The word types of FCRB (`00_scope.md` rules R11, R12 and R13).
Every number of the spec is unsigned, so each stored value is a bit vector of the stated width.
-/

namespace Sys2Proof

/-- `u8` (R12): a register address, a byte on the host port, a stored dataLength, a slot position. -/
abbrev Byte := BitVec 8

/-- `u32` (R12): canId, timestamp, an index key, SEND_STATUS and the response words. -/
abbrev Word := BitVec 32

/-- `data: u8[8]` (R16): CAN_DATA_SIZE = 8 bytes in both revisions (R11). -/
abbrev DataBytes := Vector Byte 8

end Sys2Proof
end

