-- ==== Sys2Proof/Config.lean ====
section
/-!
DEFINITION. What an instance of the block is built with (`00_scope.md` rules R8, R9, R10; R251), the
instance that `State.reset` is the reset state of, and the one free value of the model: the arbitration
between ports (R56, R226).
-/

namespace Sys2Proof

/-- FORMAT_REV ∈ {1, 2} (R8): the wire layout of the instance. -/
inductive FormatRev where
  | rev1
  | rev2
deriving DecidableEq, Repr

/-- FULL_POLICY ∈ {REJECT, EVICT_OLDEST} (R10): what an insert of a new ID does when the buffer is full. -/
inductive FullPolicy where
  | reject
  | evictOldest
deriving DecidableEq, Repr

/-- The three named parameters of an instance (R8, R9, R10). They are fixed for its life (R251); `State`
carries them so that one model covers every instance (assumption log 1). -/
structure Params where
  /-- FORMAT_REV (R8). -/
  rev : FormatRev
  /-- CAPACITY (R9): the number of slots, and of index entries. -/
  capacity : Nat
  /-- FULL_POLICY (R10). -/
  policy : FullPolicy
deriving DecidableEq, Repr

/-- R9: 1 ≤ CAPACITY ≤ 255. -/
abbrev Params.Wf (p : Params) : Prop := 1 ≤ p.capacity ∧ p.capacity ≤ 255

/-- The instance whose reset state is `State.reset`. DESIGN CHOICE (assumption log 2): the spec fixes neither
FORMAT_REV nor CAPACITY; EVICT_OLDEST is the spec's default policy (R10). -/
def Config.builtParams : Params := { rev := .rev2, capacity := 4, policy := .evictOldest }

/-- The arbitration between ports, left open by R56 and R226: which of the ports that have a command pending
is served, at the arbiter's draw number `n`. A free value: it has no body, so a claim holds for every
arbitration (assumption log 4). -/
opaque Config.arbiter : Nat → Nat

end Sys2Proof
end

