-- ==== Sys2Proof/Machine/Constants.lean ====
section
/-!
DEFINITION. The fixed constants (`00_scope.md` rule R11), the outcome kinds of an operation
(`60_exceptions.md` rules R220 and R224) and the host register address map (`20_memory.md` rule R61).
-/

namespace Sys2Proof.Machine

/-- CAN_DATA_SIZE (R11). -/
def canDataSize : Nat := 8

/-- MAX_ID, the top of the 29-bit extended identifier range (R11). -/
def maxId : Word := 0x1FFFFFFF

/-- ID_EMPTY, the key of an empty index entry (R11, R24). -/
def idEmpty : Word := 0xFFFFFFFF

/-- RESP_REJECTED (R11, R78). -/
def respRejected : Word := 0x01010101

/-- RESP_NOT_READY (R11, R78). -/
def respNotReady : Word := 0x01010102

/-- SEND_OK (R11, R78). -/
def sendOk : Word := 0x00000000

/-- FRAME_BYTES (R8): 16 in revision 1 and 14 in revision 2. -/
def frameBytes : FormatRev → Nat
  | .rev1 => 16
  | .rev2 => 14

/-- REG_FRAMES_COUNT (R61). -/
def regFramesCount : Byte := 0x02
/-- REG_SEND_FRAME, revision 2 only (R61). -/
def regSendFrame : Byte := 0x30
/-- REG_RECEIVE_FRAME (R61). -/
def regReceiveFrame : Byte := 0x40
/-- REG_I2C_ADDRESS, the Dispatcher's (R61). -/
def regI2cAddress : Byte := 0x01
/-- REG_CAN_BAUD_RATE, the Dispatcher's (R61). -/
def regCanBaudRate : Byte := 0x03
/-- REG_I2C_ADDRESS_SET, the Dispatcher's (R61). -/
def regI2cAddressSet : Byte := 0x51
/-- REG_MASK0, the Dispatcher's (R61). -/
def regMask0 : Byte := 0x60
/-- REG_MASK1, the Dispatcher's (R61). -/
def regMask1 : Byte := 0x65
/-- REG_FILT0, the Dispatcher's (R61). -/
def regFilt0 : Byte := 0x70
/-- REG_FILT1, the Dispatcher's (R61). -/
def regFilt1 : Byte := 0x80
/-- REG_FILT2, the Dispatcher's (R61). -/
def regFilt2 : Byte := 0x90
/-- REG_FILT3, the Dispatcher's (R61). -/
def regFilt3 : Byte := 0xA0
/-- REG_FILT4, the Dispatcher's (R61). -/
def regFilt4 : Byte := 0xB0
/-- REG_FILT5, the Dispatcher's (R61). -/
def regFilt5 : Byte := 0xC0

/-- The addresses that a row of the opcode map names (R61, R79); every other address is the two
lowest-priority rows' (R192, R193). -/
def namedAddresses : List Byte :=
  [regI2cAddress, regFramesCount, regCanBaudRate, regSendFrame, regReceiveFrame, regI2cAddressSet, regMask0,
   regMask1, regFilt0, regFilt1, regFilt2, regFilt3, regFilt4, regFilt5]

/-- Does a row of the opcode map name this address (R79)? -/
def named (addr : Byte) : Bool := namedAddresses.contains addr

/-- The error kinds of R220. `invalidAddressConfirmation` is the Dispatcher's, and the block never raises it
(R236). -/
inductive ErrorKind where
  | checksumMismatch
  | malformed
  | invalidLength
  | bufferFull
  | notReady
  | invalidId
  | invalidAddressConfirmation
deriving DecidableEq, Repr

/-- The outcomes of an insert (R131 to R135). -/
inductive RxOutcome where
  | stored
  | updated
  | storedEvicted
  | bufferFull
  | invalidLength
  | invalidId
deriving DecidableEq, Repr

/-- The 3-bit RX outcome code (R224). Codes 6 and 7 are never driven. -/
def rxCode : RxOutcome → BitVec 3
  | .stored => 0
  | .updated => 1
  | .storedEvicted => 2
  | .bufferFull => 3
  | .invalidLength => 4
  | .invalidId => 5

end Sys2Proof.Machine
end

