-- ==== Sys2Proof/Syntax.lean ====
section
/-!
DEFINITION. The commands of the block, one constructor for each row of `spec/opcode_table.json`
(`30_encoding.md` rules R70 and R79), with the operands that travel beside the command word (R71).
`RS` (reset) has no command word and no row (R71): it is an event of its own port (`Machine/State.lean`).
-/

namespace Sys2Proof

/-- The operands of an RX event (R42, R70). In revision 2 the port has no flag inputs: no revision 2 rule
reads `isExtended` or `isRemoteRequest` (R16; assumption log 12). -/
structure RxOperands where
  canId : Word
  isExtended : Bool
  isRemoteRequest : Bool
  dataLength : Byte
  data : DataBytes
  timestamp : Word
deriving DecidableEq, Repr

/-- The operands beside a command word, by format (R70): HR reads `n` bytes, HW carries the payload that
follows the register address (R72), RX carries a received frame, LQ an identifier. -/
inductive Operands where
  | hr (n : Nat)
  | hw (payload : List Byte)
  | rx (r : RxOperands)
  | lq (canId : Word)
deriving DecidableEq, Repr

/-- The instruction set: one constructor per row of the opcode map (R79). The read rows carry `n`, the number
of bytes the master clocks out (R73); the write rows carry the payload (R72). -/
inductive Instr where
  /-- RD_FRAMES_COUNT, word 0x102 (R162). -/
  | rdFramesCount (n : Nat)
  /-- WR_FRAMES_COUNT, word 0x002 (R163). -/
  | wrFramesCount (payload : List Byte)
  /-- WR_SEND_FRAME, word 0x030 in revision 2 (R164). -/
  | wrSendFrame (payload : List Byte)
  /-- RD_SEND_STATUS, word 0x130 in revision 2 (R165). -/
  | rdSendStatus (n : Nat)
  /-- RD_RECEIVE_FRAME, word 0x140 (R166). -/
  | rdReceiveFrame (n : Nat)
  /-- WR_RECEIVE_FRAME, word 0x040 (R167). -/
  | wrReceiveFrame (payload : List Byte)
  /-- RD_I2C_ADDRESS, word 0x101 (R168). -/
  | rdI2cAddress (n : Nat)
  /-- WR_I2C_ADDRESS, word 0x001 (R169). -/
  | wrI2cAddress (payload : List Byte)
  /-- RD_CAN_BAUD_RATE, word 0x103 (R170). -/
  | rdCanBaudRate (n : Nat)
  /-- WR_CAN_BAUD_RATE, word 0x003 (R171). -/
  | wrCanBaudRate (payload : List Byte)
  /-- RD_I2C_ADDRESS_SET, word 0x151 (R172). -/
  | rdI2cAddressSet (n : Nat)
  /-- WR_I2C_ADDRESS_SET, word 0x051 (R173). -/
  | wrI2cAddressSet (payload : List Byte)
  /-- RD_MASK0, word 0x160 (R174). -/
  | rdMask0 (n : Nat)
  /-- WR_MASK0, word 0x060 (R175). -/
  | wrMask0 (payload : List Byte)
  /-- RD_MASK1, word 0x165 (R176). -/
  | rdMask1 (n : Nat)
  /-- WR_MASK1, word 0x065 (R177). -/
  | wrMask1 (payload : List Byte)
  /-- RD_FILT0, word 0x170 (R178). -/
  | rdFilt0 (n : Nat)
  /-- WR_FILT0, word 0x070 (R179). -/
  | wrFilt0 (payload : List Byte)
  /-- RD_FILT1, word 0x180 (R180). -/
  | rdFilt1 (n : Nat)
  /-- WR_FILT1, word 0x080 (R181). -/
  | wrFilt1 (payload : List Byte)
  /-- RD_FILT2, word 0x190 (R182). -/
  | rdFilt2 (n : Nat)
  /-- WR_FILT2, word 0x090 (R183). -/
  | wrFilt2 (payload : List Byte)
  /-- RD_FILT3, word 0x1A0 (R184). -/
  | rdFilt3 (n : Nat)
  /-- WR_FILT3, word 0x0A0 (R185). -/
  | wrFilt3 (payload : List Byte)
  /-- RD_FILT4, word 0x1B0 (R186). -/
  | rdFilt4 (n : Nat)
  /-- WR_FILT4, word 0x0B0 (R187). -/
  | wrFilt4 (payload : List Byte)
  /-- RD_FILT5, word 0x1C0 (R188). -/
  | rdFilt5 (n : Nat)
  /-- WR_FILT5, word 0x0C0 (R189). -/
  | wrFilt5 (payload : List Byte)
  /-- RD_UNCLAIMED_30, word 0x130 in revision 1 (R190). -/
  | rdUnclaimed30 (n : Nat)
  /-- WR_UNCLAIMED_30, word 0x030 in revision 1 (R191). -/
  | wrUnclaimed30 (payload : List Byte)
  /-- RD_UNCLAIMED, word 0x100 + addr for every address no other row names (R192). -/
  | rdUnclaimed (addr : Byte) (n : Nat)
  /-- WR_UNCLAIMED, word 0x000 + addr for every address no other row names (R193). -/
  | wrUnclaimed (addr : Byte) (payload : List Byte)
  /-- RX_FRAME, word 0x200 (R200). -/
  | rxFrame (r : RxOperands)
  /-- LOOKUP, word 0x500 (R202). -/
  | lookup (canId : Word)
deriving DecidableEq, Repr

end Sys2Proof
end

