-- ==== Sys2Proof/WellFormed.lean ====
section
/-!
DEFINITION. Which terms of `Instr` are commands of an instance (`30_encoding.md` rule R79): a row with a
condition applies only under that condition, and the two "every other address" rows apply only when no other
row names the address. Operand values are never ill-formed: an out-of-range operand is an error outcome of
the command that carries it (R81).
-/

namespace Sys2Proof

/-- A command of an instance of revision `rev`: the row's FORMAT_REV condition and its address condition hold
(R79). -/
def Instr.wf (rev : FormatRev) : Instr → Bool
  | .wrSendFrame _ | .rdSendStatus _ => rev == .rev2
  | .rdUnclaimed30 _ | .wrUnclaimed30 _ => rev == .rev1
  | .rdUnclaimed addr _ | .wrUnclaimed addr _ => !Machine.named addr
  | .rdFramesCount _ | .wrFramesCount _ | .rdReceiveFrame _ | .wrReceiveFrame _ => true
  | .rdI2cAddress _ | .wrI2cAddress _ | .rdCanBaudRate _ | .wrCanBaudRate _ => true
  | .rdI2cAddressSet _ | .wrI2cAddressSet _ => true
  | .rdMask0 _ | .wrMask0 _ | .rdMask1 _ | .wrMask1 _ => true
  | .rdFilt0 _ | .wrFilt0 _ | .rdFilt1 _ | .wrFilt1 _ | .rdFilt2 _ | .wrFilt2 _ => true
  | .rdFilt3 _ | .wrFilt3 _ | .rdFilt4 _ | .wrFilt4 _ | .rdFilt5 _ | .wrFilt5 _ => true
  | .rxFrame _ | .lookup _ => true

end Sys2Proof
end

