-- ==== Sys2Proof/Decode.lean ====
section
/-!
DEFINITION. The command word (`30_encoding.md` rules R70, R71, R79, R80): the decoder from a word and the
operands beside it to an instruction, the encoder back, and the fixed entry `decodeTableWord`.

The word has PORT in bits 10..9, DIR in bit 8 and ADDR in bits 7..0 (R71).
-/

namespace Sys2Proof

/-- Why a word with its operands spells no command (R80). -/
inductive DecodeError where
  /-- PORT = 11 (R80). -/
  | reservedPort
  /-- A receive-port word other than 0x200 (R80). -/
  | reservedReceiveWord
  /-- A lookup-port word other than 0x500 (R80). -/
  | reservedLookupWord
  /-- The operands are not of the format of the word's row (R70). -/
  | wrongOperands
deriving DecidableEq, Repr

/-- PORT, bits 10..9 of the command word (R71). -/
def wordPort (w : BitVec 11) : BitVec 2 := w.extractLsb' 9 2

/-- DIR, bit 8 of the command word (R71): true means read. -/
def wordDir (w : BitVec 11) : Bool := w.getLsbD 8

/-- ADDR, bits 7..0 of the command word (R71). -/
def wordAddr (w : BitVec 11) : Byte := w.extractLsb' 0 8

/-- The word of a host read of `addr`: `0x100 | addr` (R71). -/
def hostReadWord (addr : Byte) : BitVec 11 := 0x100#11 ||| addr.setWidth 11

/-- The word of a host write to `addr`: `0x000 | addr` (R71). -/
def hostWriteWord (addr : Byte) : BitVec 11 := 0x000#11 ||| addr.setWidth 11

/-- The word of RX_FRAME (R71). -/
def rxWord : BitVec 11 := 0x200

/-- The word of LOOKUP (R71). -/
def lookupWord : BitVec 11 := 0x500

/-- The rows of format HR, by address (R79). -/
def decodeHostRead (rev : FormatRev) (addr : Byte) (n : Nat) : Instr :=
  if addr = Machine.regFramesCount then .rdFramesCount n
  else if addr = Machine.regSendFrame then (if rev = .rev2 then .rdSendStatus n else .rdUnclaimed30 n)
  else if addr = Machine.regReceiveFrame then .rdReceiveFrame n
  else if addr = Machine.regI2cAddress then .rdI2cAddress n
  else if addr = Machine.regCanBaudRate then .rdCanBaudRate n
  else if addr = Machine.regI2cAddressSet then .rdI2cAddressSet n
  else if addr = Machine.regMask0 then .rdMask0 n
  else if addr = Machine.regMask1 then .rdMask1 n
  else if addr = Machine.regFilt0 then .rdFilt0 n
  else if addr = Machine.regFilt1 then .rdFilt1 n
  else if addr = Machine.regFilt2 then .rdFilt2 n
  else if addr = Machine.regFilt3 then .rdFilt3 n
  else if addr = Machine.regFilt4 then .rdFilt4 n
  else if addr = Machine.regFilt5 then .rdFilt5 n
  else .rdUnclaimed addr n

/-- The rows of format HW, by address (R79). -/
def decodeHostWrite (rev : FormatRev) (addr : Byte) (payload : List Byte) : Instr :=
  if addr = Machine.regFramesCount then .wrFramesCount payload
  else if addr = Machine.regSendFrame then
    (if rev = .rev2 then .wrSendFrame payload else .wrUnclaimed30 payload)
  else if addr = Machine.regReceiveFrame then .wrReceiveFrame payload
  else if addr = Machine.regI2cAddress then .wrI2cAddress payload
  else if addr = Machine.regCanBaudRate then .wrCanBaudRate payload
  else if addr = Machine.regI2cAddressSet then .wrI2cAddressSet payload
  else if addr = Machine.regMask0 then .wrMask0 payload
  else if addr = Machine.regMask1 then .wrMask1 payload
  else if addr = Machine.regFilt0 then .wrFilt0 payload
  else if addr = Machine.regFilt1 then .wrFilt1 payload
  else if addr = Machine.regFilt2 then .wrFilt2 payload
  else if addr = Machine.regFilt3 then .wrFilt3 payload
  else if addr = Machine.regFilt4 then .wrFilt4 payload
  else if addr = Machine.regFilt5 then .wrFilt5 payload
  else .wrUnclaimed addr payload

/-- A word of the host register port (PORT = 00): a read or a write by DIR, and no host word is illegal
(R80). -/
def decodeHost (rev : FormatRev) (w : BitVec 11) (ops : Operands) : Except DecodeError Instr :=
  match wordDir w, ops with
  | true, .hr n => .ok (decodeHostRead rev (wordAddr w) n)
  | false, .hw payload => .ok (decodeHostWrite rev (wordAddr w) payload)
  | _, _ => .error .wrongOperands

/-- A word of the CAN receive port (PORT = 01): only 0x200 (R71, R80). -/
def decodeReceive (w : BitVec 11) (ops : Operands) : Except DecodeError Instr :=
  if w = rxWord then
    match ops with
    | .rx r => .ok (.rxFrame r)
    | _ => .error .wrongOperands
  else .error .reservedReceiveWord

/-- A word of the lookup port (PORT = 10): only 0x500 (R71, R80). -/
def decodeLookup (w : BitVec 11) (ops : Operands) : Except DecodeError Instr :=
  if w = lookupWord then
    match ops with
    | .lq canId => .ok (.lookup canId)
    | _ => .error .wrongOperands
  else .error .reservedLookupWord

/-- The decoder: total, and it refuses the reserved words by name (R79, R80). It depends on FORMAT_REV and on
nothing else (R59, R82). -/
def decode (rev : FormatRev) (w : BitVec 11) (ops : Operands) : Except DecodeError Instr :=
  if wordPort w = 0 then decodeHost rev w ops
  else if wordPort w = 1 then decodeReceive w ops
  else if wordPort w = 2 then decodeLookup w ops
  else .error .reservedPort

/-- The encoder: the word of each row of the opcode map (R79), and its operands. -/
def encode : Instr → BitVec 11 × Operands
  | .rdFramesCount n => (0x102, .hr n)
  | .wrFramesCount payload => (0x002, .hw payload)
  | .wrSendFrame payload => (0x030, .hw payload)
  | .rdSendStatus n => (0x130, .hr n)
  | .rdReceiveFrame n => (0x140, .hr n)
  | .wrReceiveFrame payload => (0x040, .hw payload)
  | .rdI2cAddress n => (0x101, .hr n)
  | .wrI2cAddress payload => (0x001, .hw payload)
  | .rdCanBaudRate n => (0x103, .hr n)
  | .wrCanBaudRate payload => (0x003, .hw payload)
  | .rdI2cAddressSet n => (0x151, .hr n)
  | .wrI2cAddressSet payload => (0x051, .hw payload)
  | .rdMask0 n => (0x160, .hr n)
  | .wrMask0 payload => (0x060, .hw payload)
  | .rdMask1 n => (0x165, .hr n)
  | .wrMask1 payload => (0x065, .hw payload)
  | .rdFilt0 n => (0x170, .hr n)
  | .wrFilt0 payload => (0x070, .hw payload)
  | .rdFilt1 n => (0x180, .hr n)
  | .wrFilt1 payload => (0x080, .hw payload)
  | .rdFilt2 n => (0x190, .hr n)
  | .wrFilt2 payload => (0x090, .hw payload)
  | .rdFilt3 n => (0x1A0, .hr n)
  | .wrFilt3 payload => (0x0A0, .hw payload)
  | .rdFilt4 n => (0x1B0, .hr n)
  | .wrFilt4 payload => (0x0B0, .hw payload)
  | .rdFilt5 n => (0x1C0, .hr n)
  | .wrFilt5 payload => (0x0C0, .hw payload)
  | .rdUnclaimed30 n => (0x130, .hr n)
  | .wrUnclaimed30 payload => (0x030, .hw payload)
  | .rdUnclaimed addr n => (hostReadWord addr, .hr n)
  | .wrUnclaimed addr payload => (hostWriteWord addr, .hw payload)
  | .rxFrame r => (0x200, .rx r)
  | .lookup canId => (0x500, .lq canId)

/-- The all-zero operands of the format that a word's PORT and DIR select (assumption log 14). -/
def zeroOperands (w : BitVec 11) : Operands :=
  if wordPort w = 0 then (if wordDir w then .hr 0 else .hw [])
  else if wordPort w = 1 then
    .rx { canId := 0, isExtended := false, isRemoteRequest := false, dataLength := 0,
          data := Vector.replicate 8 0, timestamp := 0 }
  else .lq 0

/-- The instruction that the decoder reads from the opcode table's word `w` with all-zero operands, for the
instance of `Config.builtParams` (assumption log 14). A command word has 11 bits (R71), so a number of more
bits is no word. -/
def decodeTableWord (_nbits w : Nat) : Option Instr :=
  if w < 2 ^ 11 then
    match decode Config.builtParams.rev (BitVec.ofNat 11 w) (zeroOperands (BitVec.ofNat 11 w)) with
    | .ok i => some i
    | .error _ => none
  else none

end Sys2Proof
end

