-- ==== Sys2Proof/Machine/State.lean ====
section
/-!
DEFINITION. The state of an instance: the block's own state (`10_state.md` rules R22 to R26), the parameters
it was built with (R8, R9, R10), and the model's side of the ports: the commands each port has delivered and
the block has not yet applied, and the answers each port has been given (R40 to R45). All plain data.
-/

namespace Sys2Proof.Machine

/-- A frame record (R16), which is also a slot of the slot file (R22). In revision 2 the two flags are held at
false (R16). `isSent = true` means that the slot is free, false that it is live (R23). -/
structure Frame where
  canId : Word
  isExtended : Bool
  isRemoteRequest : Bool
  dataLength : Byte
  data : DataBytes
  timestamp : Word
  isSent : Bool
deriving DecidableEq, Repr

/-- A CanFrameIndexEntry (R24): it maps the identifier `key` to the slot position `pos`. It is empty when
`key = ID_EMPTY`. -/
structure IndexEntry where
  key : Word
  pos : Byte
deriving DecidableEq, Repr

/-- An event of the host register port (R41). -/
inductive HostEvent where
  /-- `HostRead(addr, n)`. -/
  | read (addr : Byte) (n : Nat)
  /-- `HostWrite(addr, payload)`. -/
  | write (addr : Byte) (payload : List Byte)
deriving DecidableEq, Repr

/-- The answer to one host event (R41): `claim(b)`, and `respond(bytes)` for a claimed read; `data = none`
when the block drives no read data. -/
structure HostAnswer where
  claim : Bool
  data : Option (List Byte)
deriving DecidableEq, Repr

/-- The transmit port's event `TxFrame(canId, dataLength, data)` (R43, R201). -/
structure TxFrame where
  canId : Word
  dataLength : Byte
  data : DataBytes
deriving DecidableEq, Repr

/-- The four input ports, one for each agent that issues commands (R233). -/
inductive Port where
  | host
  | receive
  | lookup
  | reset
deriving DecidableEq, Repr

/-- One event at one port: what the block applies as one atomic step (R40, R56). -/
inductive Event where
  | host (e : HostEvent)
  | rx (r : RxOperands)
  | lookup (canId : Word)
  | reset
deriving DecidableEq, Repr

/-- Who stops the machine with a fault: nobody. The block never traps and no error is fatal (R220, R222,
R228), and the model adds no fault of its own, so the type has no constructor. -/
inductive Fault where
deriving DecidableEq, Repr

/-- Why a step gives no meaning. All are safe: the model stops, and no claim about a next state follows.
`step` raises none of them, whatever the state. -/
inductive Refusal where
  /-- Raised by `exec` for an instruction that has no meaning yet: none is left. Safe. -/
  | notModelled (mnemonic : String)
  /-- Raised by the meanings of the four rows that R79 gives a FORMAT_REV condition, in an instance of the
  other revision, where the opcode map has no such command (assumption log 13). Safe. -/
  | absentInRevision (rev : FormatRev)
  /-- Raised by the meanings of RD_UNCLAIMED and WR_UNCLAIMED on an address that another row names: the two
  rows apply only when no other row matches (R79; assumption log 13). Safe. -/
  | namedByAnotherRow (addr : Byte)
  /-- Raised by `step` for a word that spells no command (R80). No port can deliver one. Safe. -/
  | undecodable (e : DecodeError)
deriving DecidableEq, Repr

/-- The state of an instance. -/
structure State where
  /-- FORMAT_REV, CAPACITY and FULL_POLICY of the instance (R8, R9, R10). No command changes them (R251). -/
  params : Params
  /-- The slot file `slot[0]` to `slot[CAPACITY-1]` (R22). -/
  slots : List Frame
  /-- The index CAM `idx[0]` to `idx[CAPACITY-1]` (R24). -/
  index : List IndexEntry
  /-- `head`, the position of the oldest unread slot (R25). -/
  head : Byte
  /-- `count`, the number of unread slots (R25), which REG_FRAMES_COUNT shows (R29). -/
  count : Byte
  /-- SEND_STATUS (R26, R29); in revision 1 it does not exist and the field stays at SEND_OK
  (assumption log 11). -/
  sendStatus : Word
  /-- Host port events delivered and not yet applied, oldest first (R41; assumption log 3). -/
  hostIn : List HostEvent
  /-- CAN receive port events delivered and not yet applied, oldest first (R42; assumption log 3). -/
  rxIn : List RxOperands
  /-- Lookup port events delivered and not yet applied, oldest first (R44; assumption log 3). -/
  lookupIn : List Word
  /-- The number of Reset() events delivered and not yet applied (R45; assumption log 3). -/
  resetIn : Nat
  /-- The arbitration order between ports as far as it is given as an input (R32): the port that is served at
  the next event, then at the one after it, and so on (assumption log 4). -/
  schedule : List Port
  /-- How many events have been applied: the number of the arbiter's next draw (assumption log 4). -/
  arbTick : Nat
  /-- The answers to the host events, oldest first (R41; assumption log 5). -/
  hostOut : List HostAnswer
  /-- The events on the CAN transmit port, oldest first (R43; assumption log 5). -/
  txOut : List TxFrame
  /-- The RX outcome codes, oldest first (R42, R224; assumption log 5). -/
  rxOut : List (BitVec 3)
  /-- The answers of the lookup port, oldest first; `none` is a miss, whose frame has no value
  (R44, R202; assumption logs 5 and 9). -/
  lookupOut : List (Option Frame)
deriving DecidableEq, Repr

/-- A slot right after reset (R34): free; its other fields, which the spec leaves unspecified, hold zero
(DESIGN CHOICE, assumption log 7). -/
def Frame.free : Frame :=
  { canId := 0, isExtended := false, isRemoteRequest := false, dataLength := 0,
    data := Vector.replicate 8 0, timestamp := 0, isSent := true }

/-- An index entry right after reset (R34): empty; its position, which the spec leaves unspecified, holds
zero (DESIGN CHOICE, assumption log 8). -/
def IndexEntry.empty : IndexEntry := { key := idEmpty, pos := 0 }

/-- An instance built with `p`, right after reset (R34, R250), with no command delivered and no answer
given. -/
def State.resetWith (p : Params) : State :=
  { params := p
    slots := List.replicate p.capacity Frame.free
    index := List.replicate p.capacity IndexEntry.empty
    head := 0
    count := 0
    sendStatus := sendOk
    hostIn := []
    rxIn := []
    lookupIn := []
    resetIn := 0
    schedule := []
    arbTick := 0
    hostOut := []
    txOut := []
    rxOut := []
    lookupOut := [] }

/-- The machine right after reset, for the instance of `Config.builtParams` (assumption log 2). -/
def State.reset : State := State.resetWith Config.builtParams

end Sys2Proof.Machine
end

