-- ==== Sys2Proof/Machine/Flags.lean ====
section
/-!
DEFINITION. The flags of the block (`10_state.md` R23 and R28): the two wire flags as an instance of a
revision holds them (R16), the isSent mark of a slot, and the SEND_STATUS word (R26). The block has no
condition codes (R28).
-/

namespace Sys2Proof.Machine

/-- A wire flag (isExtended or isRemoteRequest) as revision `rev` holds it: the given value in revision 1,
false in revision 2 (R16, R131). -/
def heldFlag (rev : FormatRev) (b : Bool) : Bool :=
  match rev with
  | .rev1 => b
  | .rev2 => false

/-- The byte of a wire flag (R77): 0x00 for false, 0x01 for true. -/
def flagByte (b : Bool) : Byte := if b then 0x01 else 0x00

/-- A flag byte read back (R109): 0x00 is false, every other value true. -/
def flagOfByte (b : Byte) : Bool := b != 0x00

/-- A slot marked free (R23): isSent becomes true, its other fields stay as they were (R139). -/
def markFree (f : Frame) : Frame := { f with isSent := true }

/-- An index entry marked empty (R24, R139). -/
def markEmpty (e : IndexEntry) : IndexEntry := { e with key := idEmpty }

end Sys2Proof.Machine
end

