-- ==== Sys2Proof/Machine/Operands.lean ====
section
/-!
DEFINITION. The operand and byte forms: big-endian words (`20_memory.md` R52, `30_encoding.md` R76 and R78),
the answer of a read cut or padded to length (`42_host_port.md` R161), the canonical data bytes
(`00_scope.md` R17), the ranges an RX operand must be in (`41_buffer.md` R131), and the command words of the
port events (R71).
-/

namespace Sys2Proof.Machine

/-- A u32 as 4 bytes, most significant first (R52, R76, R78). -/
def wordBytes (x : Word) : List Byte :=
  [x.extractLsb' 24 8, x.extractLsb' 16 8, x.extractLsb' 8 8, x.extractLsb' 0 8]

/-- The u32 whose big-endian bytes are `b0 b1 b2 b3` (R76). -/
def wordOfBytes (b0 b1 b2 b3 : Byte) : Word :=
  (b0.setWidth 32 <<< 24) ||| (b1.setWidth 32 <<< 16) ||| (b2.setWidth 32 <<< 8) ||| b3.setWidth 32

/-- `fit(w, n)` (R161): exactly `n` bytes, cut or filled with 0x00. -/
def fit (w : List Byte) (n : Nat) : List Byte := w.take n ++ List.replicate (n - w.length) 0

/-- The canonical data bytes (R17): 0x00 at and beyond `dataLength`. -/
def clearBeyond (dataLength : Byte) (data : DataBytes) : DataBytes :=
  Vector.ofFn fun i => if i.val < dataLength.toNat then data[i] else 0

/-- `canId` is one that the receive port stores (R131): at most MAX_ID, and neither sentinel word. -/
def validId (canId : Word) : Bool :=
  decide (canId.toNat ≤ maxId.toNat) && canId != respRejected && canId != respNotReady

/-- dataLength is legal (R77, R131): at most CAN_DATA_SIZE. -/
def validLength (dataLength : Byte) : Bool := decide (dataLength.toNat ≤ canDataSize)

/-- The command word and operands of a host event (R70, R71). -/
def hostCommand : HostEvent → BitVec 11 × Operands
  | .read addr n => (hostReadWord addr, .hr n)
  | .write addr payload => (hostWriteWord addr, .hw payload)

/-- The command word and operands of an event; a Reset() has none (R71). -/
def eventCommand : Event → Option (BitVec 11 × Operands)
  | .host e => some (hostCommand e)
  | .rx r => some (rxWord, .rx r)
  | .lookup canId => some (lookupWord, .lq canId)
  | .reset => none

end Sys2Proof.Machine
end

