-- ==== Sys2Proof/Machine/Codec.lean ====
section
/-!
DEFINITION. The frame codec (`40_codec.md` rules R100 to R110; layouts `30_encoding.md` R74 and R75): pure
and total functions of their arguments and FORMAT_REV.
-/

namespace Sys2Proof.Machine

/-- The wire fields of a frame (`40_codec.md`, opening): the part of a frame record that the frame bytes
carry. In revision 2 no flag is carried and both are false (R16). -/
structure WireFrame where
  canId : Word
  isExtended : Bool
  isRemoteRequest : Bool
  dataLength : Byte
  data : DataBytes
deriving DecidableEq, Repr

/-- The wire fields of a frame record. -/
def wireOf (f : Frame) : WireFrame :=
  { canId := f.canId, isExtended := f.isExtended, isRemoteRequest := f.isRemoteRequest,
    dataLength := f.dataLength, data := f.data }

/-- One of the eight shifts of R100: shift left, and subtract the polynomial 0x07 when a 1 fell out. -/
def crcShift (c : Byte) : Byte := if c.getLsbD 7 then (c <<< 1) ^^^ 0x07 else c <<< 1

/-- One byte of R100: exclusive or, then eight shifts. -/
def crcByte (c b : Byte) : Byte :=
  crcShift (crcShift (crcShift (crcShift (crcShift (crcShift (crcShift (crcShift (c ^^^ b))))))))

/-- `crc8(s)` (R100): CRC-8, polynomial 0x07, initial value 0x00, bytes in wire order. -/
def crc8 (s : List Byte) : Byte := s.foldl crcByte 0x00

/-- The eight data bytes on the wire (R77): 0x00 at and beyond dataLength. -/
def wireData (f : WireFrame) : List Byte := (clearBeyond f.dataLength f.data).toList

/-- The revision 1 frame bytes without the checksum (R74, R103). -/
def bodyR1 (f : WireFrame) : List Byte :=
  wordBytes f.canId ++ [flagByte f.isExtended, flagByte f.isRemoteRequest, f.dataLength] ++ wireData f

/-- The revision 2 frame bytes without the checksum (R75, R104). -/
def bodyR2 (f : WireFrame) : List Byte := wordBytes f.canId ++ [f.dataLength] ++ wireData f

/-- ENCODE_R1 (R103). -/
def encodeR1 (f : WireFrame) : Except ErrorKind (List Byte) :=
  if validLength f.dataLength then .ok (bodyR1 f ++ [crc8 (bodyR1 f)]) else .error .invalidLength

/-- ENCODE_R2 (R104). -/
def encodeR2 (f : WireFrame) : Except ErrorKind (List Byte) :=
  if validLength f.dataLength then .ok (bodyR2 f ++ [crc8 (bodyR2 f)]) else .error .invalidLength

/-- Byte `i` of a sequence (R13), 0x00 beyond its end. The decoders read it only below the length. -/
def byteAt (s : List Byte) (i : Nat) : Byte := s.getD i 0

/-- The data bytes read from offset `at0` on (R106, R107): `dataLength` of them, 0x00 beyond. -/
def dataFrom (s : List Byte) (at0 : Nat) (dataLength : Byte) : DataBytes :=
  Vector.ofFn fun i => if i.val < dataLength.toNat then byteAt s (at0 + i.val) else 0

/-- The canId read from offsets 0 to 3 (R76). -/
def canIdFrom (s : List Byte) : Word := wordOfBytes (byteAt s 0) (byteAt s 1) (byteAt s 2) (byteAt s 3)

/-- DECODE_R1 (R106), with the checks in the order of R105. -/
def decodeR1 (s : List Byte) : Except ErrorKind WireFrame :=
  if s.length ≠ 16 then .error .malformed
  else if crc8 (s.take 15) ≠ byteAt s 15 then .error .checksumMismatch
  else if validLength (byteAt s 6) then
    .ok { canId := canIdFrom s
          isExtended := flagOfByte (byteAt s 4)
          isRemoteRequest := flagOfByte (byteAt s 5)
          dataLength := byteAt s 6
          data := dataFrom s 7 (byteAt s 6) }
  else .error .invalidLength

/-- DECODE_R2 (R107), with the checks in the order of R105. -/
def decodeR2 (s : List Byte) : Except ErrorKind WireFrame :=
  if s.length ≠ 14 then .error .malformed
  else if crc8 (s.take 13) ≠ byteAt s 13 then .error .checksumMismatch
  else if validLength (byteAt s 4) then
    .ok { canId := canIdFrom s
          isExtended := false
          isRemoteRequest := false
          dataLength := byteAt s 4
          data := dataFrom s 5 (byteAt s 4) }
  else .error .invalidLength

/-- `encode_rN` with N = FORMAT_REV (R110). -/
def encodeFrame (rev : FormatRev) (f : WireFrame) : Except ErrorKind (List Byte) :=
  match rev with
  | .rev1 => encodeR1 f
  | .rev2 => encodeR2 f

/-- `decode_rN` with N = FORMAT_REV (R110). -/
def decodeFrame (rev : FormatRev) (s : List Byte) : Except ErrorKind WireFrame :=
  match rev with
  | .rev1 => decodeR1 s
  | .rev2 => decodeR2 s

end Sys2Proof.Machine
end

