-- ==== Sys2Proof/Machine/Ops.lean ====
section
/-!
DEFINITION. The named operations on the state: the slot file, the index CAM and the ring (`10_state.md` R22
to R25), insert, take-next, lookup and count (`41_buffer.md` R130 to R140), the answers at the ports (R41 to
R44), the reset of the block (R250), and the delivery and the choice of the next event (R40, R56).
The block has no trap entry and no trap return (R228, R229), no memory port (R14) and no general registers
(R20), so there are no operations for them.
-/

namespace Sys2Proof.Machine

/-! ## The slot file and the index CAM -/

/-- `slot[p]` (R14). A position outside the slot file reads as a free slot (assumption log 16). -/
def State.slot (s : State) (p : Nat) : Frame := s.slots.getD p Frame.free

/-- `slot[p] <- f` (R14). -/
def State.setSlot (s : State) (p : Nat) (f : Frame) : State := { s with slots := s.slots.set p f }

/-- `idx[k]` (R14). A number outside the index reads as an empty entry (assumption log 16). -/
def State.entry (s : State) (k : Nat) : IndexEntry := s.index.getD k IndexEntry.empty

/-- `idx[k] <- e` (R14). -/
def State.setEntry (s : State) (k : Nat) (e : IndexEntry) : State := { s with index := s.index.set k e }

/-- `CamFind(id)` (R24): the entry whose key is `id`; a search for ID_EMPTY finds nothing. -/
def State.camFind (s : State) (id : Word) : Option Nat :=
  if id = idEmpty then none else s.index.findIdx? (fun e => e.key == id)

/-- `CamAlloc()` (R140): the lowest empty entry. -/
def State.camAlloc (s : State) : Option Nat := s.index.findIdx? (fun e => e.key == idEmpty)

/-- The position of ring place `j`: `(head + j) mod CAPACITY` (R25). -/
def State.ringPos (s : State) (j : Nat) : Nat := (s.head.toNat + j) % s.params.capacity

/-! ## The buffer operations -/

/-- The index entry that `remove_head` empties (R139): that of the frame in slot `head`. -/
def State.freeHeadEntry (s : State) : State :=
  match s.camFind (s.slot s.head.toNat).canId with
  | some k => s.setEntry k (markEmpty (s.entry k))
  | none => s

/-- `remove_head()` (R139): frees the oldest live slot and its index entry. -/
def State.removeHead (s : State) : State :=
  let t := s.freeHeadEntry.setSlot s.head.toNat (markFree (s.slot s.head.toNat))
  { t with head := BitVec.ofNat 8 (s.ringPos 1), count := s.count - 1 }

/-- The index entry that an allocation takes (R133, R140). -/
def State.takeEntry (s : State) (e : IndexEntry) : State :=
  match s.camAlloc with
  | some k => s.setEntry k e
  | none => s

/-- The allocation of R133 and R135: the slot at `(head + count) mod CAPACITY` and the lowest empty index
entry take the new frame. -/
def State.allocate (s : State) (f : Frame) : State :=
  let p := s.ringPos s.count.toNat
  let t := (s.takeEntry { key := f.canId, pos := BitVec.ofNat 8 p }).setSlot p f
  { t with count := s.count + 1 }

/-- The canonical frame that insert forms from the operands (R131). -/
def frameOf (rev : FormatRev) (r : RxOperands) : Frame :=
  { canId := r.canId
    isExtended := heldFlag rev r.isExtended
    isRemoteRequest := heldFlag rev r.isRemoteRequest
    dataLength := r.dataLength
    data := clearBeyond r.dataLength r.data
    timestamp := r.timestamp
    isSent := false }

/-- The update, allocate and full-buffer steps of insert (R132 to R135), for a frame that passed the
validation step. -/
def State.insertFrame (s : State) (f : Frame) : State × RxOutcome :=
  match s.camFind f.canId with
  | some k => (s.setSlot (s.entry k).pos.toNat f, .updated)
  | none =>
    if s.count.toNat < s.params.capacity then (s.allocate f, .stored)
    else
      match s.params.policy with
      | .reject => (s, .bufferFull)
      | .evictOldest => (s.removeHead.allocate f, .storedEvicted)

/-- INSERT (R131 to R135): the identifier is checked first, then the length (R225). -/
def State.insert (s : State) (r : RxOperands) : State × RxOutcome :=
  if validId r.canId then
    if validLength r.dataLength then s.insertFrame (frameOf s.params.rev r)
    else (s, .invalidLength)
  else (s, .invalidId)

/-- TAKE_NEXT (R136). -/
def State.takeNext (s : State) : State × Except ErrorKind Frame :=
  if s.count = 0 then (s, .error .notReady) else (s.removeHead, .ok (s.slot s.head.toNat))

/-- LOOKUP (R137): one associative search; `none` is a miss. -/
def State.lookupFrame (s : State) (id : Word) : Option Frame :=
  match s.camFind id with
  | some k => some (s.slot (s.entry k).pos.toNat)
  | none => none

/-- COUNT (R138). -/
def State.framesCount (s : State) : Byte := s.count

/-! ## The answers at the ports -/

/-- The answer to a host event (R41). -/
def State.answerHost (s : State) (a : HostAnswer) : State := { s with hostOut := s.hostOut ++ [a] }

/-- A claimed read: `claim(true)` and `respond(fit(w, n))` (R161). -/
def State.respond (s : State) (w : List Byte) (n : Nat) : State :=
  s.answerHost { claim := true, data := some (fit w n) }

/-- A claimed write: `claim(true)` and no read data (R41). -/
def State.acceptWrite (s : State) : State := s.answerHost { claim := true, data := none }

/-- A transaction the block does not claim: `claim(false)`, and nothing else (R160). -/
def State.leaveUnclaimed (s : State) : State := s.answerHost { claim := false, data := none }

/-- `emit_tx(f)` (R201): one event on the transmit port, always accepted. -/
def State.emitTx (s : State) (f : WireFrame) : State :=
  { s with txOut := s.txOut ++ [{ canId := f.canId, dataLength := f.dataLength, data := f.data }] }

/-- `rx_outcome(code)` (R42, R224). -/
def State.driveRx (s : State) (o : RxOutcome) : State := { s with rxOut := s.rxOut ++ [rxCode o] }

/-- The answer of the lookup port (R44, R202). -/
def State.answerLookup (s : State) (a : Option Frame) : State := { s with lookupOut := s.lookupOut ++ [a] }

/-- The write of SEND_STATUS (R26). -/
def State.setSendStatus (s : State) (w : Word) : State := { s with sendStatus := w }

/-! ## Reset -/

/-- The reset event (R250): every piece of the block's state takes its value of R34. The parameters stay
(R251), no port is answered, and the events still pending are applied after it (R226). -/
def State.resetBlock (s : State) : State :=
  { s with
    slots := List.replicate s.params.capacity Frame.free
    index := List.replicate s.params.capacity IndexEntry.empty
    head := 0
    count := 0
    sendStatus := sendOk }

/-! ## Delivery, and the choice of the next event -/

/-- The outside world delivers an event at its port: it waits behind the events the port delivered before
(R40, R56 (a)). -/
def State.deliver (s : State) : Event → State
  | .host e => { s with hostIn := s.hostIn ++ [e] }
  | .rx r => { s with rxIn := s.rxIn ++ [r] }
  | .lookup canId => { s with lookupIn := s.lookupIn ++ [canId] }
  | .reset => { s with resetIn := s.resetIn + 1 }

/-- Has this port an event pending? -/
def State.portReady (s : State) : Port → Bool
  | .host => !s.hostIn.isEmpty
  | .receive => !s.rxIn.isEmpty
  | .lookup => !s.lookupIn.isEmpty
  | .reset => s.resetIn != 0

/-- The ports that have an event pending. -/
def State.readyPorts (s : State) : List Port :=
  [Port.host, Port.receive, Port.lookup, Port.reset].filter s.portReady

/-- The port that the arbitration picks among several that have an event pending: the one the arbitration
order names, where it names one of them; otherwise the arbiter's draw, a free value (R56 (b), R226; assumption
log 4). -/
def State.arbitrate (s : State) (ready : List Port) (p : Port) : Port :=
  match s.schedule with
  | c :: _ =>
    if ready.contains c then c else ready.getD (Config.arbiter s.arbTick % ready.length) p
  | [] => ready.getD (Config.arbiter s.arbTick % ready.length) p

/-- The port served next; `none` when no port has an event pending. -/
def State.nextPort (s : State) : Option Port :=
  match s.readyPorts with
  | [] => none
  | [p] => some p
  | p :: q :: rest => some (s.arbitrate (p :: q :: rest) p)

/-- One turn of the arbitration used up. -/
def State.nextTurn (s : State) : State := { s with schedule := s.schedule.tail, arbTick := s.arbTick + 1 }

/-- The oldest event of a port, and the state in which it is no longer pending. -/
def State.takeEvent (s : State) : Port → Option (Event × State)
  | .host =>
    match s.hostIn with
    | [] => none
    | e :: rest => some (.host e, { s.nextTurn with hostIn := rest })
  | .receive =>
    match s.rxIn with
    | [] => none
    | r :: rest => some (.rx r, { s.nextTurn with rxIn := rest })
  | .lookup =>
    match s.lookupIn with
    | [] => none
    | canId :: rest => some (.lookup canId, { s.nextTurn with lookupIn := rest })
  | .reset =>
    match s.resetIn with
    | 0 => none
    | k + 1 => some (.reset, { s.nextTurn with resetIn := k })

/-- The next event to apply, and the state in which it is no longer pending; `none` when no port has one. -/
def State.fetch (s : State) : Option (Event × State) :=
  match s.nextPort with
  | none => none
  | some p => s.takeEvent p

/-- The event that delivers the command word `w` with all-zero operands, where a port can deliver it (R80). -/
def wordEvent (w : BitVec 11) : Option Event :=
  if wordPort w = 0 then
    some (.host (if wordDir w then .read (wordAddr w) 0 else .write (wordAddr w) []))
  else if w = rxWord then
    some (.rx { canId := 0, isExtended := false, isRemoteRequest := false, dataLength := 0,
                data := Vector.replicate 8 0, timestamp := 0 })
  else if w = lookupWord then some (.lookup 0)
  else none

/-- `s` with one event as the oldest of its port, and every other port without one: the next step applies
exactly it. -/
def State.placeFirst (s : State) : Event → State
  | .host e => { s with hostIn := e :: s.hostIn, rxIn := [], lookupIn := [], resetIn := 0 }
  | .rx r => { s with hostIn := [], rxIn := r :: s.rxIn, lookupIn := [], resetIn := 0 }
  | .lookup canId => { s with hostIn := [], rxIn := [], lookupIn := canId :: s.lookupIn, resetIn := 0 }
  | .reset => { s with hostIn := [], rxIn := [], lookupIn := [], resetIn := s.resetIn + 1 }

/-- `s` with the opcode table's command word `w`, with all-zero operands, as the next event to apply
(assumption logs 3 and 14). A word that no port can deliver leaves `s` as it is. -/
def State.placeWord (s : State) (w : Nat) : State :=
  if w < 2 ^ 11 then
    match wordEvent (BitVec.ofNat 11 w) with
    | some e => s.placeFirst e
    | none => s
  else s

end Sys2Proof.Machine
end

