-- ==== Sys2Proof/Machine/CanPorts.lean ====
section
/-!
DEFINITION. The meanings of the CAN receive port's and the lookup port's commands (`43_can_ports.md` rules
R200 and R202).
-/

namespace Sys2Proof.Machine

/-- RX_FRAME (R200): insert, and its outcome code at the receive port. -/
def execRxFrame (r : RxOperands) (s : State) : Host.Outcome State Fault Refusal :=
  .next ((s.insert r).1.driveRx (s.insert r).2)

/-- LOOKUP (R202): the live frame stored under one identifier; no state changes. -/
def execLookup (canId : Word) (s : State) : Host.Outcome State Fault Refusal :=
  .next (s.answerLookup (s.lookupFrame canId))

end Sys2Proof.Machine
end

