-- ==== Sys2Proof/Machine/HostClaimed.lean ====
section
/-!
DEFINITION. The meanings of the host commands the block claims (`42_host_port.md` rules R162 to R167).
-/

namespace Sys2Proof.Machine

/-- RD_FRAMES_COUNT (R162). -/
def execRdFramesCount (n : Nat) (s : State) : Host.Outcome State Fault Refusal :=
  .next (s.respond [s.framesCount] n)

/-- WR_FRAMES_COUNT (R163): claimed and ignored. -/
def execWrFramesCount (_payload : List Byte) (s : State) : Host.Outcome State Fault Refusal :=
  .next s.acceptWrite

/-- The effect of a REG_SEND_FRAME write (R164): the decoded frame is emitted and SEND_STATUS records it, or
SEND_STATUS records the rejection. -/
def State.sendFrame (s : State) (payload : List Byte) : State :=
  match decodeR2 payload with
  | .ok f => (s.setSendStatus sendOk).emitTx f
  | .error _ => s.setSendStatus respRejected

/-- WR_SEND_FRAME (R164): revision 2 only. -/
def execWrSendFrame (payload : List Byte) (s : State) : Host.Outcome State Fault Refusal :=
  match s.params.rev with
  | .rev1 => .refused (.absentInRevision .rev1)
  | .rev2 => .next (s.sendFrame payload).acceptWrite

/-- RD_SEND_STATUS (R165): revision 2 only. -/
def execRdSendStatus (n : Nat) (s : State) : Host.Outcome State Fault Refusal :=
  match s.params.rev with
  | .rev1 => .refused (.absentInRevision .rev1)
  | .rev2 => .next (s.respond (wordBytes s.sendStatus) n)

/-- The response bytes of a REG_RECEIVE_FRAME read, from what take-next returned (R166, R223). The
encode-error arm is reached in no reachable state (R166). -/
def receiveResponse (rev : FormatRev) : Except ErrorKind Frame → List Byte
  | .error _ => wordBytes respNotReady
  | .ok f =>
    match encodeFrame rev (wireOf f) with
    | .ok e => e
    | .error _ => wordBytes respRejected

/-- RD_RECEIVE_FRAME (R166): take-next happens whatever `n` is (R253). -/
def execRdReceiveFrame (n : Nat) (s : State) : Host.Outcome State Fault Refusal :=
  .next (s.takeNext.1.respond (receiveResponse s.params.rev s.takeNext.2) n)

/-- WR_RECEIVE_FRAME (R167): claimed and ignored. -/
def execWrReceiveFrame (_payload : List Byte) (s : State) : Host.Outcome State Fault Refusal :=
  .next s.acceptWrite

end Sys2Proof.Machine
end

