-- ==== Sys2Proof/Machine/HostUnclaimed.lean ====
section
/-!
DEFINITION. The meanings of the host commands the block does not claim (`42_host_port.md` rules R168 to R193).
Each is `claim(false)` and nothing else: the external Register Dispatcher owns these addresses (R160, and
`00_scope.md` R6 (a)). Each row has a definition of its own over the one shared operation.
-/

namespace Sys2Proof.Machine

/-- RD_I2C_ADDRESS (R168): `claim(false)`. -/
def execRdI2cAddress (_n : Nat) (s : State) : Host.Outcome State Fault Refusal :=
  .next s.leaveUnclaimed

/-- WR_I2C_ADDRESS (R169): `claim(false)`. -/
def execWrI2cAddress (_payload : List Byte) (s : State) : Host.Outcome State Fault Refusal :=
  .next s.leaveUnclaimed

/-- RD_CAN_BAUD_RATE (R170): `claim(false)`. -/
def execRdCanBaudRate (_n : Nat) (s : State) : Host.Outcome State Fault Refusal :=
  .next s.leaveUnclaimed

/-- WR_CAN_BAUD_RATE (R171): `claim(false)`. -/
def execWrCanBaudRate (_payload : List Byte) (s : State) : Host.Outcome State Fault Refusal :=
  .next s.leaveUnclaimed

/-- RD_I2C_ADDRESS_SET (R172): `claim(false)`. -/
def execRdI2cAddressSet (_n : Nat) (s : State) : Host.Outcome State Fault Refusal :=
  .next s.leaveUnclaimed

/-- WR_I2C_ADDRESS_SET (R173): `claim(false)`. -/
def execWrI2cAddressSet (_payload : List Byte) (s : State) : Host.Outcome State Fault Refusal :=
  .next s.leaveUnclaimed

/-- RD_MASK0 (R174): `claim(false)`. -/
def execRdMask0 (_n : Nat) (s : State) : Host.Outcome State Fault Refusal :=
  .next s.leaveUnclaimed

/-- WR_MASK0 (R175): `claim(false)`. -/
def execWrMask0 (_payload : List Byte) (s : State) : Host.Outcome State Fault Refusal :=
  .next s.leaveUnclaimed

/-- RD_MASK1 (R176): `claim(false)`. -/
def execRdMask1 (_n : Nat) (s : State) : Host.Outcome State Fault Refusal :=
  .next s.leaveUnclaimed

/-- WR_MASK1 (R177): `claim(false)`. -/
def execWrMask1 (_payload : List Byte) (s : State) : Host.Outcome State Fault Refusal :=
  .next s.leaveUnclaimed

/-- RD_FILT0 (R178): `claim(false)`. -/
def execRdFilt0 (_n : Nat) (s : State) : Host.Outcome State Fault Refusal :=
  .next s.leaveUnclaimed

/-- WR_FILT0 (R179): `claim(false)`. -/
def execWrFilt0 (_payload : List Byte) (s : State) : Host.Outcome State Fault Refusal :=
  .next s.leaveUnclaimed

/-- RD_FILT1 (R180): `claim(false)`. -/
def execRdFilt1 (_n : Nat) (s : State) : Host.Outcome State Fault Refusal :=
  .next s.leaveUnclaimed

/-- WR_FILT1 (R181): `claim(false)`. -/
def execWrFilt1 (_payload : List Byte) (s : State) : Host.Outcome State Fault Refusal :=
  .next s.leaveUnclaimed

/-- RD_FILT2 (R182): `claim(false)`. -/
def execRdFilt2 (_n : Nat) (s : State) : Host.Outcome State Fault Refusal :=
  .next s.leaveUnclaimed

/-- WR_FILT2 (R183): `claim(false)`. -/
def execWrFilt2 (_payload : List Byte) (s : State) : Host.Outcome State Fault Refusal :=
  .next s.leaveUnclaimed

/-- RD_FILT3 (R184): `claim(false)`. -/
def execRdFilt3 (_n : Nat) (s : State) : Host.Outcome State Fault Refusal :=
  .next s.leaveUnclaimed

/-- WR_FILT3 (R185): `claim(false)`. -/
def execWrFilt3 (_payload : List Byte) (s : State) : Host.Outcome State Fault Refusal :=
  .next s.leaveUnclaimed

/-- RD_FILT4 (R186): `claim(false)`. -/
def execRdFilt4 (_n : Nat) (s : State) : Host.Outcome State Fault Refusal :=
  .next s.leaveUnclaimed

/-- WR_FILT4 (R187): `claim(false)`. -/
def execWrFilt4 (_payload : List Byte) (s : State) : Host.Outcome State Fault Refusal :=
  .next s.leaveUnclaimed

/-- RD_FILT5 (R188): `claim(false)`. -/
def execRdFilt5 (_n : Nat) (s : State) : Host.Outcome State Fault Refusal :=
  .next s.leaveUnclaimed

/-- WR_FILT5 (R189): `claim(false)`. -/
def execWrFilt5 (_payload : List Byte) (s : State) : Host.Outcome State Fault Refusal :=
  .next s.leaveUnclaimed

/-- RD_UNCLAIMED_30 (R190): `claim(false)`, in revision 1, where the block owns nothing at 0x30. -/
def execRdUnclaimed30 (_n : Nat) (s : State) : Host.Outcome State Fault Refusal :=
  match s.params.rev with
  | .rev1 => .next s.leaveUnclaimed
  | .rev2 => .refused (.absentInRevision .rev2)

/-- WR_UNCLAIMED_30 (R191): `claim(false)`, in revision 1, where the block owns nothing at 0x30. -/
def execWrUnclaimed30 (_payload : List Byte) (s : State) : Host.Outcome State Fault Refusal :=
  match s.params.rev with
  | .rev1 => .next s.leaveUnclaimed
  | .rev2 => .refused (.absentInRevision .rev2)

/-- RD_UNCLAIMED (R192): `claim(false)`, at every address that no other row names. -/
def execRdUnclaimed (addr : Byte) (_n : Nat) (s : State) : Host.Outcome State Fault Refusal :=
  if named addr then .refused (.namedByAnotherRow addr) else .next s.leaveUnclaimed

/-- WR_UNCLAIMED (R193): `claim(false)`, at every address that no other row names. -/
def execWrUnclaimed (addr : Byte) (_payload : List Byte) (s : State) :
    Host.Outcome State Fault Refusal :=
  if named addr then .refused (.namedByAnotherRow addr) else .next s.leaveUnclaimed

end Sys2Proof.Machine
end

