-- ==== Sys2Proof/Machine/Dispatch.lean ====
section
/-! DEFINITION. The dispatch of a command to its meaning, one arm per row of the opcode map (R79, R160). -/

namespace Sys2Proof.Machine

def exec (i : Instr) (s : State) : Host.Outcome State Fault Refusal :=
  match i with
  | .rdFramesCount n => Sys2Proof.Machine.execRdFramesCount n s
  | .wrFramesCount payload => Sys2Proof.Machine.execWrFramesCount payload s
  | .wrSendFrame payload => Sys2Proof.Machine.execWrSendFrame payload s
  | .rdSendStatus n => Sys2Proof.Machine.execRdSendStatus n s
  | .rdReceiveFrame n => Sys2Proof.Machine.execRdReceiveFrame n s
  | .wrReceiveFrame payload => Sys2Proof.Machine.execWrReceiveFrame payload s
  | .rdI2cAddress n => Sys2Proof.Machine.execRdI2cAddress n s
  | .wrI2cAddress payload => Sys2Proof.Machine.execWrI2cAddress payload s
  | .rdCanBaudRate n => Sys2Proof.Machine.execRdCanBaudRate n s
  | .wrCanBaudRate payload => Sys2Proof.Machine.execWrCanBaudRate payload s
  | .rdI2cAddressSet n => Sys2Proof.Machine.execRdI2cAddressSet n s
  | .wrI2cAddressSet payload => Sys2Proof.Machine.execWrI2cAddressSet payload s
  | .rdMask0 n => Sys2Proof.Machine.execRdMask0 n s
  | .wrMask0 payload => Sys2Proof.Machine.execWrMask0 payload s
  | .rdMask1 n => Sys2Proof.Machine.execRdMask1 n s
  | .wrMask1 payload => Sys2Proof.Machine.execWrMask1 payload s
  | .rdFilt0 n => Sys2Proof.Machine.execRdFilt0 n s
  | .wrFilt0 payload => Sys2Proof.Machine.execWrFilt0 payload s
  | .rdFilt1 n => Sys2Proof.Machine.execRdFilt1 n s
  | .wrFilt1 payload => Sys2Proof.Machine.execWrFilt1 payload s
  | .rdFilt2 n => Sys2Proof.Machine.execRdFilt2 n s
  | .wrFilt2 payload => Sys2Proof.Machine.execWrFilt2 payload s
  | .rdFilt3 n => Sys2Proof.Machine.execRdFilt3 n s
  | .wrFilt3 payload => Sys2Proof.Machine.execWrFilt3 payload s
  | .rdFilt4 n => Sys2Proof.Machine.execRdFilt4 n s
  | .wrFilt4 payload => Sys2Proof.Machine.execWrFilt4 payload s
  | .rdFilt5 n => Sys2Proof.Machine.execRdFilt5 n s
  | .wrFilt5 payload => Sys2Proof.Machine.execWrFilt5 payload s
  | .rdUnclaimed30 n => Sys2Proof.Machine.execRdUnclaimed30 n s
  | .wrUnclaimed30 payload => Sys2Proof.Machine.execWrUnclaimed30 payload s
  | .rdUnclaimed addr n => Sys2Proof.Machine.execRdUnclaimed addr n s
  | .wrUnclaimed addr payload => Sys2Proof.Machine.execWrUnclaimed addr payload s
  | .rxFrame r => Sys2Proof.Machine.execRxFrame r s
  | .lookup canId => Sys2Proof.Machine.execLookup canId s

end Sys2Proof.Machine
end

