-- ==== Sys2Proof/Machine/Run.lean ====
section
/-!
DEFINITION. A command and an event applied: the command word is decoded by FORMAT_REV and executed
(`20_memory.md` R56 and R59, `30_encoding.md` R79).
-/

namespace Sys2Proof.Machine

/-- A command word with its operands, decoded by FORMAT_REV (R59, R79) and executed. -/
def runCommand (c : BitVec 11 × Operands) (s : State) : Host.Outcome State Fault Refusal :=
  match decode s.params.rev c.1 c.2 with
  | .ok i => exec i s
  | .error e => .refused (.undecodable e)

/-- An event applied: a command at its port, or the reset of the block (R250). -/
def applyEvent (e : Event) (s : State) : Host.Outcome State Fault Refusal :=
  match eventCommand e with
  | some c => runCommand c s
  | none => .next s.resetBlock

end Sys2Proof.Machine
end

