-- ==== Sys2Proof/Machine/Step.lean ====
section
/-!
DEFINITION. One step: the next event of one port is applied as one atomic command (`20_memory.md` R56;
`10_state.md` R40). With no event pending the block waits and nothing changes (assumption log 6).
-/

namespace Sys2Proof.Machine

/-- One step of the machine. -/
def step (s : State) : Host.Outcome State Fault Refusal :=
  match s.fetch with
  | none => .next s
  | some (e, t) => applyEvent e t

/-- `s` with the opcode table's command word `w`, with all-zero operands, placed so that the next step runs
exactly it (assumption logs 3 and 14). -/
def State.withFetchWord (s : State) (_nbits w : Nat) : State := s.placeWord w

end Sys2Proof.Machine
end

