-- ==== Sys2Proof/Machine/Pseudo.lean ====
section
/-!
DEFINITION. The pseudo-instructions of `30_encoding.md` rule R84, each with the command it expands to.
-/

namespace Sys2Proof.Machine

/-- A pseudo-instruction (R84). -/
inductive Pseudo where
  /-- `COUNT`. -/
  | count
  /-- `RECV`. -/
  | recv
  /-- `STATUS`, revision 2. -/
  | status
  /-- `SEND id=…, dl=…, data=[…]`, revision 2. -/
  | send (canId : Word) (dataLength : Byte) (data : DataBytes)
deriving DecidableEq, Repr

/-- The frame that `SEND` encodes (R84): canonical, with no flag (R16, R17). -/
def sendWire (canId : Word) (dataLength : Byte) (data : DataBytes) : WireFrame :=
  { canId := canId, isExtended := false, isRemoteRequest := false, dataLength := dataLength,
    data := clearBeyond dataLength data }

/-- The expansion of a pseudo-instruction (R84). `STATUS` and `SEND` exist in revision 2 only, and a `SEND`
whose frame does not encode (R104) has no expansion. -/
def expandPseudo (rev : FormatRev) : Pseudo → Option Instr
  | .count => some (.rdFramesCount 1)
  | .recv => some (.rdReceiveFrame (frameBytes rev))
  | .status =>
    match rev with
    | .rev1 => none
    | .rev2 => some (.rdSendStatus 4)
  | .send canId dataLength data =>
    match rev with
    | .rev1 => none
    | .rev2 =>
      match encodeR2 (sendWire canId dataLength data) with
      | .ok payload => some (.wrSendFrame payload)
      | .error _ => none

end Sys2Proof.Machine
end

