-- ==== Sys2Proof/Safety.lean ====
section
/-!
DEFINITION. The terms claims are stated in: the invariants of `10_state.md` R27, the states a run reaches
(R56, R252), the fair runs (R58, R262), the unread frames in receive order (R25), the buffer as a plain list of
unread frames (R31), and runs of several commands.
-/

namespace Sys2Proof.Machine

/-! ## The invariants -/

/-- Position `p` is a live position (R25): `(head + j) mod CAPACITY` for some `j < count`. -/
abbrev State.LivePos (s : State) (p : Nat) : Prop := ∃ j, j < s.count.toNat ∧ p = s.ringPos j

/-- A canonical frame (R17): every data byte at or beyond dataLength is 0x00. -/
abbrev Canonical (dataLength : Byte) (data : DataBytes) : Prop :=
  ∀ i : Fin 8, dataLength.toNat ≤ i.val → data[i] = 0

/-- What a live slot holds (R27 (I5)): a canonical frame with dataLength ≤ 8 and canId ≤ MAX_ID, neither
sentinel; and in revision 2 both flags are false (R16). -/
abbrev Storable (rev : FormatRev) (f : Frame) : Prop :=
  Canonical f.dataLength f.data ∧ f.dataLength.toNat ≤ 8 ∧ f.canId.toNat ≤ 0x1FFFFFFF ∧
    f.canId ≠ 0x01010101#32 ∧ f.canId ≠ 0x01010102#32 ∧
    (rev = .rev2 → f.isExtended = false ∧ f.isRemoteRequest = false)

/-- The operands of an RX event that the receive port stores (R131): canId ≤ MAX_ID and neither sentinel, and
dataLength ≤ 8. -/
abbrev ValidRx (r : RxOperands) : Prop :=
  r.canId.toNat ≤ 0x1FFFFFFF ∧ r.canId ≠ 0x01010101#32 ∧ r.canId ≠ 0x01010102#32 ∧ r.dataLength.toNat ≤ 8

/-- `f` is the frame that insert forms from the operands `r` (R131), field by field. -/
abbrev FormedFrom (rev : FormatRev) (r : RxOperands) (f : Frame) : Prop :=
  f.canId = r.canId ∧ f.dataLength = r.dataLength ∧
    (∀ i : Fin 8, f.data[i] = if i.val < r.dataLength.toNat then r.data[i] else 0) ∧
    f.timestamp = r.timestamp ∧ f.isSent = false ∧
    (rev = .rev1 → f.isExtended = r.isExtended ∧ f.isRemoteRequest = r.isRemoteRequest) ∧
    (rev = .rev2 → f.isExtended = false ∧ f.isRemoteRequest = false)

/-- The invariants that every reachable state satisfies (R27), with the sizes of the slot file and the index
(R9, R22, R24), the ranges of head and count (R25) and the values of SEND_STATUS (R26; assumption log 11). -/
structure State.Inv (s : State) : Prop where
  paramsWf : s.params.Wf
  slotsLength : s.slots.length = s.params.capacity
  indexLength : s.index.length = s.params.capacity
  headLt : s.head.toNat < s.params.capacity
  countLe : s.count.toNat ≤ s.params.capacity
  /-- (I1) -/
  liveIff : ∀ p, p < s.params.capacity → ((s.slot p).isSent = false ↔ s.LivePos p)
  /-- (I2) -/
  keysDistinct : ∀ k, k < s.params.capacity → ∀ k', k' < s.params.capacity →
    (s.entry k).key ≠ idEmpty → (s.entry k).key = (s.entry k').key → k = k'
  /-- (I3), from entries to slots -/
  entryLive : ∀ k, k < s.params.capacity → (s.entry k).key ≠ idEmpty →
    (s.entry k).pos.toNat < s.params.capacity ∧ (s.slot (s.entry k).pos.toNat).isSent = false ∧
      (s.slot (s.entry k).pos.toNat).canId = (s.entry k).key
  /-- (I3), from slots to entries -/
  liveEntry : ∀ p, p < s.params.capacity → (s.slot p).isSent = false →
    ∃ k, k < s.params.capacity ∧ (s.entry k).key ≠ idEmpty ∧ (s.entry k).pos.toNat = p
  /-- (I4) -/
  entryCount : s.index.countP (fun e => e.key != idEmpty) = s.count.toNat
  /-- (I5) -/
  liveStorable : ∀ p, p < s.params.capacity → (s.slot p).isSent = false →
    Storable s.params.rev (s.slot p)
  /-- R26 -/
  statusLegal : s.sendStatus = sendOk ∨ (s.sendStatus = respRejected ∧ s.params.rev = .rev2)

/-! ## Reachable states and runs -/

/-- The states that an instance built with `p` reaches from its reset, whatever the ports deliver and whenever
they deliver it, and whatever arbitration order is given (R56, R226, R252). -/
inductive Reachable (p : Params) : State → Prop where
  | reset : Reachable p (State.resetWith p)
  | deliver (s : State) (e : Event) : Reachable p s → Reachable p (s.deliver e)
  | order (s : State) (ports : List Port) : Reachable p s → Reachable p { s with schedule := ports }
  | step (s t : State) : Reachable p s → step s = .next t → Reachable p t

/-- The commands of a list, applied one after the other. -/
def execAll : List Instr → State → Host.Outcome State Fault Refusal
  | [], s => .next s
  | i :: rest, s =>
    match exec i s with
    | .next t => execAll rest t
    | .fault r => .fault r
    | .refused r => .refused r

/-- The events of a list, applied one after the other. -/
def applyAll : List Event → State → Host.Outcome State Fault Refusal
  | [], s => .next s
  | e :: rest, s =>
    match applyEvent e s with
    | .next t => applyAll rest t
    | .fault r => .fault r
    | .refused r => .refused r

/-- The state of the block and the answers given, without the events pending and the arbitration. -/
def State.withoutPending (s : State) : State :=
  { s with hostIn := [], rxIn := [], lookupIn := [], resetIn := 0, schedule := [], arbTick := 0 }

/-- How many events are pending at all ports. -/
def State.pendingCount (s : State) : Nat :=
  s.hostIn.length + s.rxIn.length + s.lookupIn.length + s.resetIn

/-- The port that delivers an event. -/
def eventPort : Event → Port
  | .host _ => .host
  | .rx _ => .receive
  | .lookup _ => .lookup
  | .reset => .reset

/-- The events of a list delivered, each at its port, in the order of the list. -/
def State.deliverAll (s : State) (es : List Event) : State := es.foldl State.deliver s

/-- The host port's events of a list. -/
def hostEvents (es : List Event) : List HostEvent :=
  es.filterMap fun | .host e => some e | _ => none

/-- The receive port's events of a list. -/
def rxEvents (es : List Event) : List RxOperands :=
  es.filterMap fun | .rx r => some r | _ => none

/-- The lookup port's events of a list. -/
def lookupEvents (es : List Event) : List Word :=
  es.filterMap fun | .lookup canId => some canId | _ => none

/-- The number of reset events of a list. -/
def resetEvents (es : List Event) : Nat := es.countP fun e => e == .reset

/-- Is the command a REG_RECEIVE_FRAME read? -/
def isReceiveRead : Instr → Bool
  | .rdReceiveFrame _ => true
  | _ => false

/-! ## Fair runs (R58, R262) -/

/-- One move of a run: the outside world delivers an event at its port or gives an arbitration order, or the
block makes a step. -/
inductive Move where
  | deliver (e : Event)
  | order (ports : List Port)
  | step
deriving DecidableEq, Repr

/-- What a move does. -/
def applyMove : Move → State → Host.Outcome State Fault Refusal
  | .deliver e, s => .next (s.deliver e)
  | .order ports, s => .next { s with schedule := ports }
  | .step, s => Sys2Proof.Machine.step s

/-- An endless run of the instance built with `p`, from its reset (R252): `states n` is the state before the
move `moves n`. Deliveries may go on for ever. -/
structure IsRun (p : Params) (moves : Nat → Move) (states : Nat → State) : Prop where
  start : states 0 = State.resetWith p
  next : ∀ n, applyMove (moves n) (states n) = .next (states (n + 1))

/-- Does move `n` apply an event of this port? -/
def servesAt (moves : Nat → Move) (states : Nat → State) (port : Port) (n : Nat) : Bool :=
  moves n == .step && (states n).nextPort == some port

/-- Weak fairness (R58, R262; assumption log 18): a port that has a command pending from some moment on, for
ever, is served at or after that moment. -/
def WeaklyFair (moves : Nat → Move) (states : Nat → State) : Prop :=
  ∀ (port : Port) (n : Nat), (∀ m, n ≤ m → (states m).portReady port = true) →
    ∃ m, n ≤ m ∧ servesAt moves states port m = true

/-- How many events are pending at a port. -/
def State.pendingAt (s : State) : Port → Nat
  | .host => s.hostIn.length
  | .receive => s.rxIn.length
  | .lookup => s.lookupIn.length
  | .reset => s.resetIn

/-- How many events of a port the `k` moves from `n` on apply. -/
def servedCount (moves : Nat → Move) (states : Nat → State) (port : Port) (n k : Nat) : Nat :=
  (List.range k).countP fun i => servesAt moves states port (n + i)

/-- The payload of a REG_SEND_FRAME write (R164). -/
def sendPayload : Instr → Option (List Byte)
  | .wrSendFrame payload => some payload
  | _ => none

/-! ## The unread frames, and the buffer as a list of them -/

/-- The unread frames in receive order, the oldest first (R25). -/
def State.unread (s : State) : List Frame := (List.range s.count.toNat).map fun j => s.slot (s.ringPos j)

/-- Insert on the list of unread frames (R132 to R135): a known ID is updated in its place, a new one goes to
the end; a full buffer rejects it, or loses its oldest frame. -/
def fifoInsert (p : Params) (q : List Frame) (f : Frame) : List Frame × RxOutcome :=
  if q.any (fun g => g.canId == f.canId) then
    (q.map (fun g => if g.canId = f.canId then f else g), .updated)
  else if q.length < p.capacity then (q ++ [f], .stored)
  else
    match p.policy with
    | .reject => (q, .bufferFull)
    | .evictOldest => (q.tail ++ [f], .storedEvicted)

/-- RX_FRAME on the list of unread frames (R131, R200). -/
def fifoRx (p : Params) (q : List Frame) (r : RxOperands) : List Frame × RxOutcome :=
  if 0x1FFFFFFF < r.canId.toNat ∨ r.canId = 0x01010101#32 ∨ r.canId = 0x01010102#32 then (q, .invalidId)
  else if 8 < r.dataLength.toNat then (q, .invalidLength)
  else fifoInsert p q (frameOf p.rev r)

end Sys2Proof.Machine
end

