-- ==== Sys2Proof/Certificates/Slice0/Obligations.lean ====
section
/-!
DEFINITION. The statements for the provers, one `def Obligations.<Name> : Prop` each, in the order of
OBLIGATIONS.json. Each docstring names the rules of the spec it formalises. A statement marked "derived" rests
on an inference that the spec marks as its own, or on a choice of the model named in the assumption log.
-/

open Sys2Proof Sys2Proof.Machine

/-! ## The command word -/

/-- A few words of the opcode map (R79), as their rows give them, decode to the commands of those rows. -/
def Obligations.OpcodeMapWordsDecode : Prop :=
  decode .rev1 0b00100000010 (.hr 1) = .ok (.rdFramesCount 1) ∧
  decode .rev2 0b00000110000 (.hw [7]) = .ok (.wrSendFrame [7]) ∧
  decode .rev1 0b00000110000 (.hw [7]) = .ok (.wrUnclaimed30 [7]) ∧
  decode .rev2 0b00100110000 (.hr 4) = .ok (.rdSendStatus 4) ∧
  decode .rev1 0b00100110000 (.hr 4) = .ok (.rdUnclaimed30 4) ∧
  decode .rev2 0b00101000000 (.hr 14) = .ok (.rdReceiveFrame 14) ∧
  decode .rev1 0b00001010001 (.hw [0x5A]) = .ok (.wrI2cAddressSet [0x5A]) ∧
  decode .rev1 0b00101100101 (.hr 0) = .ok (.rdMask1 0) ∧
  decode .rev2 0b00011000000 (.hw []) = .ok (.wrFilt5 []) ∧
  decode .rev2 0b00101110111 (.hr 1) = .ok (.rdUnclaimed 0x77 1) ∧
  decode .rev2 0b10100000000 (.lq 0x123) = .ok (.lookup 0x123)

/-- Every command of an instance, encoded as the opcode map gives it (R79), decodes back to itself with every
operand it carries, for every operand value. -/
def Obligations.EncodedCommandDecodesToItself : Prop :=
  ∀ (rev : FormatRev) (i : Instr), i.wf rev = true → decode rev (encode i).1 (encode i).2 = .ok i

/-- Each word with its operands has at most one meaning: what a word decodes to is a command of the instance,
and encodes back to the same word and operands (R79). -/
def Obligations.DecodedWordReencodesToItself : Prop :=
  ∀ (rev : FormatRev) (w : BitVec 11) (ops : Operands) (i : Instr),
    decode rev w ops = .ok i → i.wf rev = true ∧ encode i = (w, ops)

/-- R80: the reserved words are refused, each class under its own name, and no host-port word is illegal. -/
def Obligations.ReservedWordsAreRefused : Prop :=
  ∀ (rev : FormatRev) (w : BitVec 11),
    (0x600 ≤ w.toNat → ∀ ops, decode rev w ops = .error .reservedPort) ∧
    (0x201 ≤ w.toNat ∧ w.toNat ≤ 0x3FF → ∀ ops, decode rev w ops = .error .reservedReceiveWord) ∧
    (0x400 ≤ w.toNat ∧ w.toNat ≤ 0x4FF ∨ 0x501 ≤ w.toNat ∧ w.toNat ≤ 0x5FF →
      ∀ ops, decode rev w ops = .error .reservedLookupWord) ∧
    (w.toNat ≤ 0xFF → ∀ payload, ∃ i, decode rev w (.hw payload) = .ok i) ∧
    (0x100 ≤ w.toNat ∧ w.toNat ≤ 0x1FF → ∀ n, ∃ i, decode rev w (.hr n) = .ok i)

/-! ## The frame codec -/

/-- R100: crc8 starts at 0x00 and takes in each byte by an exclusive or and eight shifts with the polynomial
0x07; and the rule's check values. -/
def Obligations.ChecksumFollowsTheCrcAlgorithm : Prop :=
  crc8 [] = 0x00 ∧
  (∀ (s : List Byte) (b : Byte),
    crc8 (s ++ [b]) =
      (fun c : Byte => if c.getLsbD 7 then (c <<< 1) ^^^ 0x07#8 else c <<< 1)^[8] (crc8 s ^^^ b)) ∧
  crc8 [0x01] = 0x07 ∧ crc8 [0x80] = 0x89 ∧ crc8 [0xFF] = 0xF3 ∧
  crc8 [0x31, 0x32, 0x33, 0x34, 0x35, 0x36, 0x37, 0x38, 0x39] = 0xF4

/-- R102 (derived by the spec): change exactly one byte of frame bytes that decode as Ok to a different value,
the checksum byte included, and decode answers ChecksumMismatch. -/
def Obligations.SingleByteChangeIsDetected : Prop :=
  ∀ (rev : FormatRev) (b : List Byte) (f : WireFrame), decodeFrame rev b = .ok f →
    ∀ (i : Nat), i < b.length → ∀ (x : Byte), b[i]? ≠ some x →
      decodeFrame rev (b.set i x) = .error .checksumMismatch

/-- R103 over the layout R74: ENCODE_R1, byte by byte, and its one error. -/
def Obligations.EncodeRevision1LaysOutTheFrame : Prop :=
  ∀ f : WireFrame,
    (8 < f.dataLength.toNat → encodeR1 f = .error .invalidLength) ∧
    (f.dataLength.toNat ≤ 8 → ∃ b, encodeR1 f = .ok b ∧ b.length = 16 ∧
      b[0]? = some (f.canId.extractLsb' 24 8) ∧ b[1]? = some (f.canId.extractLsb' 16 8) ∧
      b[2]? = some (f.canId.extractLsb' 8 8) ∧ b[3]? = some (f.canId.extractLsb' 0 8) ∧
      b[4]? = some (if f.isExtended then 0x01 else 0x00) ∧
      b[5]? = some (if f.isRemoteRequest then 0x01 else 0x00) ∧
      b[6]? = some f.dataLength ∧
      (∀ i : Fin 8, b[7 + i.val]? = some (if i.val < f.dataLength.toNat then f.data[i] else 0x00)) ∧
      b[15]? = some (crc8 (b.take 15)))

/-- R104 over the layout R75: ENCODE_R2, byte by byte, and its one error. -/
def Obligations.EncodeRevision2LaysOutTheFrame : Prop :=
  ∀ f : WireFrame,
    (8 < f.dataLength.toNat → encodeR2 f = .error .invalidLength) ∧
    (f.dataLength.toNat ≤ 8 → ∃ b, encodeR2 f = .ok b ∧ b.length = 14 ∧
      b[0]? = some (f.canId.extractLsb' 24 8) ∧ b[1]? = some (f.canId.extractLsb' 16 8) ∧
      b[2]? = some (f.canId.extractLsb' 8 8) ∧ b[3]? = some (f.canId.extractLsb' 0 8) ∧
      b[4]? = some f.dataLength ∧
      (∀ i : Fin 8, b[5 + i.val]? = some (if i.val < f.dataLength.toNat then f.data[i] else 0x00)) ∧
      b[13]? = some (crc8 (b.take 13)))

/-- R106, with the check order of R105 and the flag bytes of R109: DECODE_R1 on every byte sequence. -/
def Obligations.DecodeRevision1ChecksThenReads : Prop :=
  ∀ s : List Byte,
    (s.length ≠ 16 → decodeR1 s = .error .malformed) ∧
    (s.length = 16 → s[15]? ≠ some (crc8 (s.take 15)) → decodeR1 s = .error .checksumMismatch) ∧
    (∀ dl, s.length = 16 → s[15]? = some (crc8 (s.take 15)) → s[6]? = some dl → 8 < dl.toNat →
      decodeR1 s = .error .invalidLength) ∧
    (∀ b0 b1 b2 b3 b4 b5 dl : Byte, s.length = 16 → s[15]? = some (crc8 (s.take 15)) →
      s[0]? = some b0 → s[1]? = some b1 → s[2]? = some b2 → s[3]? = some b3 → s[4]? = some b4 →
      s[5]? = some b5 → s[6]? = some dl → dl.toNat ≤ 8 →
      ∃ f, decodeR1 s = .ok f ∧
        f.canId = ((b0.setWidth 32 <<< 24) ||| (b1.setWidth 32 <<< 16) ||| (b2.setWidth 32 <<< 8) |||
          b3.setWidth 32) ∧
        f.isExtended = decide (b4 ≠ 0x00) ∧ f.isRemoteRequest = decide (b5 ≠ 0x00) ∧ f.dataLength = dl ∧
        ∀ i : Fin 8, some f.data[i] = if i.val < dl.toNat then s[7 + i.val]? else some 0x00)

/-- R107, with the check order of R105: DECODE_R2 on every byte sequence. It carries no flag; the model's
record holds both at false (R16). -/
def Obligations.DecodeRevision2ChecksThenReads : Prop :=
  ∀ s : List Byte,
    (s.length ≠ 14 → decodeR2 s = .error .malformed) ∧
    (s.length = 14 → s[13]? ≠ some (crc8 (s.take 13)) → decodeR2 s = .error .checksumMismatch) ∧
    (∀ dl, s.length = 14 → s[13]? = some (crc8 (s.take 13)) → s[4]? = some dl → 8 < dl.toNat →
      decodeR2 s = .error .invalidLength) ∧
    (∀ b0 b1 b2 b3 dl : Byte, s.length = 14 → s[13]? = some (crc8 (s.take 13)) →
      s[0]? = some b0 → s[1]? = some b1 → s[2]? = some b2 → s[3]? = some b3 → s[4]? = some dl →
      dl.toNat ≤ 8 →
      ∃ f, decodeR2 s = .ok f ∧
        f.canId = ((b0.setWidth 32 <<< 24) ||| (b1.setWidth 32 <<< 16) ||| (b2.setWidth 32 <<< 8) |||
          b3.setWidth 32) ∧
        f.isExtended = false ∧ f.isRemoteRequest = false ∧ f.dataLength = dl ∧
        ∀ i : Fin 8, some f.data[i] = if i.val < dl.toNat then s[5 + i.val]? else some 0x00)

/-- R108 (derived by the spec), from frame to bytes: in both revisions, decoding an encoded frame gives its
canonical form, which is the frame itself when it is canonical. -/
def Obligations.DecodeInvertsEncode : Prop :=
  ∀ (rev : FormatRev) (f : WireFrame), f.dataLength.toNat ≤ 8 →
    (rev = .rev2 → f.isExtended = false ∧ f.isRemoteRequest = false) →
    ∃ b g, encodeFrame rev f = .ok b ∧ decodeFrame rev b = .ok g ∧
      g.canId = f.canId ∧ g.isExtended = f.isExtended ∧ g.isRemoteRequest = f.isRemoteRequest ∧
      g.dataLength = f.dataLength ∧
      (∀ i : Fin 8, g.data[i] = if i.val < f.dataLength.toNat then f.data[i] else 0) ∧
      (Canonical f.dataLength f.data → g = f)

/-- R108 (derived by the spec), from bytes to frame: accepted bytes re-encode to themselves exactly when every
data byte at or beyond dataLength is 0x00 and, in revision 1, both flag bytes are 0x00 or 0x01. -/
def Obligations.EncodeInvertsDecodeOnCanonicalBytes : Prop :=
  (∀ (s : List Byte) (f : WireFrame), decodeR1 s = .ok f →
    (encodeR1 f = .ok s ↔
      (∀ i : Fin 8, f.dataLength.toNat ≤ i.val → s[7 + i.val]? = some 0x00) ∧
      (s[4]? = some 0x00 ∨ s[4]? = some 0x01) ∧ (s[5]? = some 0x00 ∨ s[5]? = some 0x01))) ∧
  (∀ (s : List Byte) (f : WireFrame), decodeR2 s = .ok f →
    (encodeR2 f = .ok s ↔ ∀ i : Fin 8, f.dataLength.toNat ≤ i.val → s[5 + i.val]? = some 0x00))

/-- R78 (derived by the spec): a sentinel with its 0x00 fill, read as frame bytes, fails its checksum in both
revisions. -/
def Obligations.SentinelAnswerIsNoFrame : Prop :=
  ∀ rev : FormatRev,
    decodeFrame rev (fit [0x01, 0x01, 0x01, 0x01] (frameBytes rev)) = .error .checksumMismatch ∧
    decodeFrame rev (fit [0x01, 0x01, 0x01, 0x02] (frameBytes rev)) = .error .checksumMismatch

/-! ## Reset, the invariants and the reachable states -/

/-- R34: the values right after reset, for every instance. In revision 1, where SEND_STATUS does not exist (R34
gives it a row for revision 2 only), the value of its field is the model's choice (assumption log 11). -/
def Obligations.ResetValues : Prop :=
  ∀ p : Params,
    (State.resetWith p).head = 0 ∧ (State.resetWith p).count = 0 ∧
    (State.resetWith p).slots.length = p.capacity ∧ (State.resetWith p).index.length = p.capacity ∧
    (∀ f ∈ (State.resetWith p).slots, f.isSent = true) ∧
    (∀ e ∈ (State.resetWith p).index, e.key = 0xFFFFFFFF#32) ∧
    (State.resetWith p).sendStatus = 0x00000000#32 ∧ (State.resetWith p).params = p

/-- R250: the event Reset(), when it is the next one applied, sets the block's state to the values of R34, for
the parameters the instance was built with; no port is answered, and no other event is lost. -/
def Obligations.ResetEventEmptiesTheBlock : Prop :=
  ∀ s u : State, s.fetch = some (.reset, u) → ∃ t, step s = .next t ∧
    t.head = 0 ∧ t.count = 0 ∧
    t.slots.length = s.params.capacity ∧ (∀ f ∈ t.slots, f.isSent = true) ∧
    t.index.length = s.params.capacity ∧ (∀ e ∈ t.index, e.key = 0xFFFFFFFF#32) ∧
    t.sendStatus = 0x00000000#32 ∧ t.params = s.params ∧
    t.hostOut = s.hostOut ∧ t.txOut = s.txOut ∧ t.rxOut = s.rxOut ∧ t.lookupOut = s.lookupOut ∧
    t.hostIn = s.hostIn ∧ t.rxIn = s.rxIn ∧ t.lookupIn = s.lookupIn ∧ t.resetIn + 1 = s.resetIn

/-- R27 (derived by the spec): the machine right after reset meets the invariants. -/
def Obligations.ResetMeetsTheInvariants : Prop := State.reset.Inv

/-- R27 (derived by the spec): every instance with a CAPACITY of R9 meets the invariants at its reset. -/
def Obligations.EveryInstanceResetsIntoTheInvariants : Prop :=
  ∀ p : Params, p.Wf → (State.resetWith p).Inv

/-- R27 (derived by the spec): every step keeps the invariants (I1) to (I5), from every state that meets
them. -/
def Obligations.EveryStepKeepsTheInvariants : Prop :=
  ∀ s t : State, s.Inv → step s = .next t → t.Inv

/-- R27 (derived by the spec): every reachable state satisfies the invariants, whatever the ports deliver,
whenever they deliver it, and in whatever order the ports are served. -/
def Obligations.ReachableStatesMeetTheInvariants : Prop :=
  ∀ (p : Params) (s : State), p.Wf → Reachable p s → s.Inv ∧ s.params = p

/-- R27 (I6) (derived by the spec): no two live slots hold the same canId. -/
def Obligations.LiveSlotsHoldDistinctIds : Prop :=
  ∀ s : State, s.Inv → ∀ p q, p < s.params.capacity → q < s.params.capacity →
    (s.slot p).isSent = false → (s.slot q).isSent = false → (s.slot p).canId = (s.slot q).canId → p = q

/-- R29, R25: `count` is the number of unread slots. -/
def Obligations.CountIsTheNumberOfUnreadSlots : Prop :=
  ∀ s : State, s.Inv → s.slots.countP (fun f => !f.isSent) = s.count.toNat

/-- R251: the parameters hold their built values; no command and no reset changes them. -/
def Obligations.ParametersNeverChange : Prop :=
  (∀ p : Params, (State.resetWith p).params = p) ∧
  (∀ s t : State, step s = .next t → t.params = s.params) ∧
  (∀ (i : Instr) (s t : State), exec i s = .next t → t.params = s.params) ∧
  (∀ (s : State) (e : Event), (s.deliver e).params = s.params)

/-! ## The receive port -/

/-- The validation step of insert (R131, R225): an identifier above MAX_ID or a sentinel is INVALID_ID, checked
first; then a dataLength above 8 is INVALID_LENGTH; nothing but the outcome code is written. -/
def Obligations.RxInvalidOperandsAreDropped : Prop :=
  ∀ (s : State) (r : RxOperands),
    (0x1FFFFFFF < r.canId.toNat ∨ r.canId = 0x01010101#32 ∨ r.canId = 0x01010102#32 →
      exec (.rxFrame r) s = .next { s with rxOut := s.rxOut ++ [5#3] }) ∧
    (r.canId.toNat ≤ 0x1FFFFFFF ∧ r.canId ≠ 0x01010101#32 ∧ r.canId ≠ 0x01010102#32 →
      8 < r.dataLength.toNat → exec (.rxFrame r) s = .next { s with rxOut := s.rxOut ++ [4#3] })

/-- R132: a frame whose identifier an index entry maps overwrites that slot in place; head, count, the index
and every other slot stay, and the outcome is UPDATED, full buffer or not. -/
def Obligations.RxKnownIdUpdatesInPlace : Prop :=
  ∀ (s : State) (r : RxOperands) (k : Nat), s.Inv → ValidRx r →
    k < s.params.capacity → (s.entry k).key = r.canId →
    ∃ f, FormedFrom s.params.rev r f ∧
      exec (.rxFrame r) s =
        .next { s with slots := s.slots.set (s.entry k).pos.toNat f, rxOut := s.rxOut ++ [1#3] }

/-- R133: a frame with a new identifier, with a free slot, takes the slot at (head + count) mod CAPACITY and
the lowest empty index entry; count grows by one, and the outcome is STORED. -/
def Obligations.RxNewIdIsStored : Prop :=
  ∀ (s : State) (r : RxOperands), s.Inv → ValidRx r →
    (∀ k, k < s.params.capacity → (s.entry k).key ≠ r.canId) → s.count.toNat < s.params.capacity →
    ∃ f k p, FormedFrom s.params.rev r f ∧
      p.toNat = (s.head.toNat + s.count.toNat) % s.params.capacity ∧
      k < s.params.capacity ∧ (s.entry k).key = 0xFFFFFFFF#32 ∧
      (∀ k', k' < k → (s.entry k').key ≠ 0xFFFFFFFF#32) ∧
      exec (.rxFrame r) s =
        .next { s with
                slots := s.slots.set p.toNat f
                index := s.index.set k { key := r.canId, pos := p }
                count := s.count + 1
                rxOut := s.rxOut ++ [0#3] }

/-- R134: under REJECT, a frame with a new identifier that finds the buffer full is dropped; nothing but the
outcome BUFFER_FULL is written. -/
def Obligations.RxFullBufferRejects : Prop :=
  ∀ (s : State) (r : RxOperands), s.Inv → ValidRx r →
    (∀ k, k < s.params.capacity → (s.entry k).key ≠ r.canId) → s.count.toNat = s.params.capacity →
    s.params.policy = .reject →
    exec (.rxFrame r) s = .next { s with rxOut := s.rxOut ++ [3#3] }

/-- R135: under EVICT_OLDEST, a frame with a new identifier that finds the buffer full takes the slot and the
index entry of the oldest unread frame and becomes the newest; head moves on, count stays at CAPACITY, and the
outcome is STORED_EVICTED. -/
def Obligations.RxFullBufferEvictsOldest : Prop :=
  ∀ (s : State) (r : RxOperands), s.Inv → ValidRx r →
    (∀ k, k < s.params.capacity → (s.entry k).key ≠ r.canId) → s.count.toNat = s.params.capacity →
    s.params.policy = .evictOldest →
    ∃ f k h, FormedFrom s.params.rev r f ∧
      k < s.params.capacity ∧ (s.entry k).key = (s.slot s.head.toNat).canId ∧
      h.toNat = (s.head.toNat + 1) % s.params.capacity ∧
      exec (.rxFrame r) s =
        .next { s with
                slots := s.slots.set s.head.toNat f
                index := s.index.set k { key := r.canId, pos := s.head }
                head := h
                rxOut := s.rxOut ++ [2#3] }

/-- R224: the receive port is driven by RX_FRAME alone, once for each frame, with a code from 0 to 5. -/
def Obligations.RxOutcomeCodesStayInRange : Prop :=
  ∀ (i : Instr) (s t : State), exec i s = .next t →
    ((∀ r, i ≠ .rxFrame r) → t.rxOut = s.rxOut) ∧
    (∀ r, i = .rxFrame r → ∃ c : BitVec 3, c.toNat ≤ 5 ∧ t.rxOut = s.rxOut ++ [c])

/-- R141 (derived by the spec): after two frames with the same identifier, the first of them not turned away
by a full buffer under REJECT, a lookup returns the second, and count has grown by at most one. -/
def Obligations.LatestFrameWins : Prop :=
  ∀ (s : State) (r1 r2 : RxOperands), s.Inv → ValidRx r1 → ValidRx r2 → r1.canId = r2.canId →
    ¬ (s.params.policy = .reject ∧ s.count.toNat = s.params.capacity ∧
        ∀ k, k < s.params.capacity → (s.entry k).key ≠ r1.canId) →
    ∃ t f, execAll [.rxFrame r1, .rxFrame r2, .lookup r1.canId] s = .next t ∧
      FormedFrom s.params.rev r2 f ∧ t.lookupOut = s.lookupOut ++ [some f] ∧
      t.count.toNat ≤ s.count.toNat + 1

/-- R142 (derived by the spec): from reset, CAPACITY + 1 frames with distinct, valid identifiers. Under REJECT
the last is BUFFER_FULL and the first is still present; under EVICT_OLDEST the last is STORED_EVICTED and
present, and the first is lost; every other frame is STORED. -/
def Obligations.FullPolicyIsDeterministic : Prop :=
  ∀ (p : Params) (first last : RxOperands) (mid : List RxOperands), p.Wf →
    mid.length + 1 = p.capacity → (∀ r ∈ first :: mid ++ [last], ValidRx r) →
    ((first :: mid ++ [last]).map RxOperands.canId).Nodup →
    ∃ t, execAll ((first :: mid ++ [last]).map .rxFrame) (State.resetWith p) = .next t ∧
      (p.policy = .reject →
        t.rxOut = List.replicate p.capacity 0#3 ++ [3#3] ∧
        (t.lookupFrame first.canId).isSome = true ∧ (t.lookupFrame last.canId).isSome = false) ∧
      (p.policy = .evictOldest →
        t.rxOut = List.replicate p.capacity 0#3 ++ [2#3] ∧
        (t.lookupFrame first.canId).isSome = false ∧ (t.lookupFrame last.canId).isSome = true)

/-! ## Take-next, lookup and count -/

/-- R136, R139 and R166: RD_RECEIVE_FRAME answers the not-ready sentinel from an empty buffer and writes
nothing else; otherwise it frees the oldest unread slot and its index entry, and answers that frame's bytes.
The error arm of R166, which no reachable state takes, answers the rejected sentinel after the same take-next. -/
def Obligations.ReceiveReadConsumesTheOldest : Prop :=
  ∀ (s : State) (n : Nat),
    (s.count = 0 →
      exec (.rdReceiveFrame n) s =
        .next { s with hostOut := s.hostOut ++ [⟨true, some (fit [0x01, 0x01, 0x01, 0x02] n)⟩] }) ∧
    (s.count ≠ 0 → 8 < (s.slot s.head.toNat).dataLength.toNat →
      ∃ t, exec (.rdReceiveFrame n) s = .next t ∧
        t.slots = s.slots.set s.head.toNat { s.slot s.head.toNat with isSent := true } ∧
        t.count = s.count - 1 ∧
        t.hostOut = s.hostOut ++ [⟨true, some (fit [0x01, 0x01, 0x01, 0x01] n)⟩]) ∧
    (s.Inv → s.count ≠ 0 →
      ∃ e k h, encodeFrame s.params.rev (wireOf (s.slot s.head.toNat)) = .ok e ∧
        k < s.params.capacity ∧ (s.entry k).key = (s.slot s.head.toNat).canId ∧
        h.toNat = (s.head.toNat + 1) % s.params.capacity ∧
        exec (.rdReceiveFrame n) s =
          .next { s with
                  slots := s.slots.set s.head.toNat { s.slot s.head.toNat with isSent := true }
                  index := s.index.set k { s.entry k with key := 0xFFFFFFFF#32 }
                  head := h
                  count := s.count - 1
                  hostOut := s.hostOut ++ [⟨true, some (fit e n)⟩] })

/-- R137 and R202: LOOKUP answers the live frame stored under the identifier, and a miss exactly when there is
none; it changes no state. -/
def Obligations.LookupAnswersTheLiveFrame : Prop :=
  ∀ (s : State) (id : Word), s.Inv →
    ∃ a, exec (.lookup id) s = .next { s with lookupOut := s.lookupOut ++ [a] } ∧
      ∀ f, a = some f ↔
        ∃ p, p < s.params.capacity ∧ s.slot p = f ∧ f.isSent = false ∧ f.canId = id

/-- R31, R132 to R135: seen as the list of unread frames in receive order, RX_FRAME updates a known identifier
in its place, appends a new one, and on a full buffer rejects it or drops the oldest. -/
def Obligations.RxRefinesTheUnreadList : Prop :=
  ∀ (s : State) (r : RxOperands), s.Inv →
    ∃ t, exec (.rxFrame r) s = .next t ∧
      t.unread = (fifoRx s.params s.unread r).1 ∧
      t.rxOut = s.rxOut ++ [rxCode (fifoRx s.params s.unread r).2]

/-- R31, R136 to R138: seen as the list of unread frames in receive order, RD_RECEIVE_FRAME takes the first,
RD_FRAMES_COUNT answers the length, and LOOKUP finds the frame with the identifier. -/
def Obligations.ReadsRefineTheUnreadList : Prop :=
  ∀ s : State, s.Inv →
    (∀ n, s.unread = [] → ∃ t, exec (.rdReceiveFrame n) s = .next t ∧ t.unread = [] ∧
      t.hostOut = s.hostOut ++ [⟨true, some (fit [0x01, 0x01, 0x01, 0x02] n)⟩]) ∧
    (∀ n f q, s.unread = f :: q → ∃ t e, exec (.rdReceiveFrame n) s = .next t ∧ t.unread = q ∧
      encodeFrame s.params.rev (wireOf f) = .ok e ∧
      t.hostOut = s.hostOut ++ [⟨true, some (fit e n)⟩]) ∧
    (∀ n, ∃ t, exec (.rdFramesCount n) s = .next t ∧ t.unread = s.unread ∧
      t.hostOut = s.hostOut ++ [⟨true, some (fit [BitVec.ofNat 8 s.unread.length] n)⟩]) ∧
    (∀ id, ∃ t, exec (.lookup id) s = .next t ∧ t.unread = s.unread ∧
      t.lookupOut = s.lookupOut ++ [s.unread.find? (fun f => f.canId == id)])

/-- R31 (derived by the spec): slot positions and index entry numbers are observable at no port. Two states of
one instance with the same unread frames in the same order and the same SEND_STATUS give the same answers at
every port to every sequence of commands. -/
def Obligations.PositionsAreNotObservable : Prop :=
  ∀ (is : List Instr) (s1 s2 : State), s1.Inv → s2.Inv → (∀ i ∈ is, i.wf s1.params.rev = true) →
    s1.params = s2.params → s1.unread = s2.unread → s1.sendStatus = s2.sendStatus →
    s1.hostOut = s2.hostOut → s1.txOut = s2.txOut → s1.rxOut = s2.rxOut → s1.lookupOut = s2.lookupOut →
    ∃ t1 t2, execAll is s1 = .next t1 ∧ execAll is s2 = .next t2 ∧
      t1.unread = t2.unread ∧ t1.sendStatus = t2.sendStatus ∧ t1.hostOut = t2.hostOut ∧
      t1.txOut = t2.txOut ∧ t1.rxOut = t2.rxOut ∧ t1.lookupOut = t2.lookupOut

/-- R255 (derived by the spec): a positive count is a promise. From a state with `count` unread frames, after
any commands of which fewer than `count` are REG_RECEIVE_FRAME reads, the next such read answers frame bytes,
and their leading four bytes are neither sentinel. -/
def Obligations.PositiveCountIsAPromise : Prop :=
  ∀ (s : State) (is : List Instr) (n : Nat), s.Inv → (∀ i ∈ is, i.wf s.params.rev = true) →
    is.countP isReceiveRead < s.count.toNat →
    ∃ t u e f, execAll is s = .next t ∧ exec (.rdReceiveFrame n) t = .next u ∧
      u.hostOut = t.hostOut ++ [⟨true, some (fit e n)⟩] ∧
      e.length = frameBytes s.params.rev ∧ decodeFrame s.params.rev e = .ok f ∧
      e.take 4 ≠ [0x01, 0x01, 0x01, 0x01] ∧ e.take 4 ≠ [0x01, 0x01, 0x01, 0x02]

/-! ## The host port -/

/-- R160: every host event is answered once, with the claim of its address alone; where the block does not
claim it, no read data is driven and nothing else is written. -/
def Obligations.HostEventsAreClaimedByAddress : Prop :=
  ∀ (s : State) (e : HostEvent) (addr : Byte),
    (∃ n, e = .read addr n) ∨ (∃ payload, e = .write addr payload) →
    ∃ t a, applyEvent (.host e) s = .next t ∧ t.hostOut = s.hostOut ++ [a] ∧
      a.claim = decide (addr = 0x02 ∨ addr = 0x40 ∨ (addr = 0x30 ∧ s.params.rev = .rev2)) ∧
      (a.claim = false → a.data = none ∧ t = { s with hostOut := t.hostOut })

/-- R161: the answer of a claimed read is its register's bytes cut to n, or filled with 0x00 to n, and the
effect of the read does not depend on n. -/
def Obligations.ReadsAreCutOrFilledToLength : Prop :=
  (∀ (w : List Byte) (n : Nat), (fit w n).length = n ∧
    ∀ i, i < n → (fit w n)[i]? = some (if h : i < w.length then w[i] else 0x00)) ∧
  (∀ s : State, ∃ w, ∀ n, exec (.rdFramesCount n) s =
    .next { s with hostOut := s.hostOut ++ [⟨true, some (fit w n)⟩] }) ∧
  (∀ s : State, s.params.rev = .rev2 → ∃ w, ∀ n, exec (.rdSendStatus n) s =
    .next { s with hostOut := s.hostOut ++ [⟨true, some (fit w n)⟩] }) ∧
  (∀ s : State, ∃ (w : List Byte) (t : State), ∀ n, exec (.rdReceiveFrame n) s =
    .next { t with hostOut := s.hostOut ++ [⟨true, some (fit w n)⟩] })

/-- R162: RD_FRAMES_COUNT answers count in byte 0 and 0x00 after it, and writes nothing else. -/
def Obligations.CountReadAnswersCount : Prop :=
  ∀ (s : State) (n : Nat), ∃ d, d.length = n ∧
    (∀ i, i < n → d[i]? = some (if i = 0 then s.count else 0x00)) ∧
    exec (.rdFramesCount n) s = .next { s with hostOut := s.hostOut ++ [⟨true, some d⟩] }

/-- R163 and R167: a write to REG_FRAMES_COUNT or REG_RECEIVE_FRAME, with any payload, is claimed and
ignored. -/
def Obligations.ReadOnlyRegistersIgnoreWrites : Prop :=
  ∀ (s : State) (payload : List Byte),
    exec (.wrFramesCount payload) s = .next { s with hostOut := s.hostOut ++ [⟨true, none⟩] } ∧
    exec (.wrReceiveFrame payload) s = .next { s with hostOut := s.hostOut ++ [⟨true, none⟩] }

/-- R164: WR_SEND_FRAME, in revision 2, decodes its payload: an accepted frame is emitted and SEND_STATUS
becomes SEND_OK; a rejected one emits nothing and SEND_STATUS becomes RESP_REJECTED; nothing else is
written. In revision 1 no word is this command. -/
def Obligations.SendFrameEmitsOrRejects : Prop :=
  (∀ (s : State) (payload : List Byte), s.params.rev = .rev2 →
    (∀ f, decodeR2 payload = .ok f →
      exec (.wrSendFrame payload) s =
        .next { s with
                sendStatus := 0x00000000#32
                txOut := s.txOut ++ [⟨f.canId, f.dataLength, f.data⟩]
                hostOut := s.hostOut ++ [⟨true, none⟩] }) ∧
    (∀ k, decodeR2 payload = .error k →
      exec (.wrSendFrame payload) s =
        .next { s with
                sendStatus := 0x01010101#32
                hostOut := s.hostOut ++ [⟨true, none⟩] })) ∧
  (∀ (w : BitVec 11) (ops : Operands) (payload : List Byte), decode .rev1 w ops ≠ .ok (.wrSendFrame payload))

/-- R165: RD_SEND_STATUS, in revision 2, answers SEND_STATUS, most significant byte first, 0x00 after its four
bytes, and writes nothing else: the read does not clear it. In revision 1 no word is this command. -/
def Obligations.StatusReadAnswersSendStatus : Prop :=
  (∀ (s : State) (n : Nat), s.params.rev = .rev2 → ∃ d, d.length = n ∧
    (∀ i, i < n → d[i]? = some (if i = 0 then s.sendStatus.extractLsb' 24 8
      else if i = 1 then s.sendStatus.extractLsb' 16 8
      else if i = 2 then s.sendStatus.extractLsb' 8 8
      else if i = 3 then s.sendStatus.extractLsb' 0 8 else 0x00)) ∧
    exec (.rdSendStatus n) s = .next { s with hostOut := s.hostOut ++ [⟨true, some d⟩] }) ∧
  (∀ (w : BitVec 11) (ops : Operands) (n : Nat), decode .rev1 w ops ≠ .ok (.rdSendStatus n))

/-- R84 with R104, R108 and R164: the command that SEND expands to transmits SEND's frame, canonical, and
records SEND_OK, for every identifier and data and every legal dataLength. -/
def Obligations.SendPseudoTransmitsItsFrame : Prop :=
  ∀ (s : State) (id : Word) (dl : Byte) (d : DataBytes), s.params.rev = .rev2 → dl.toNat ≤ 8 →
    ∃ payload f, expandPseudo .rev2 (.send id dl d) = some (.wrSendFrame payload) ∧
      f.canId = id ∧ f.dataLength = dl ∧
      (∀ i : Fin 8, f.data[i] = if i.val < dl.toNat then d[i] else 0) ∧
      exec (.wrSendFrame payload) s =
        .next { s with
                sendStatus := 0x00000000#32
                txOut := s.txOut ++ [f]
                hostOut := s.hostOut ++ [⟨true, none⟩] }

/-- R26, R257: over any run of commands, SEND_STATUS holds the result of the most recent REG_SEND_FRAME write,
and what it held before where there is none. -/
def Obligations.SendStatusIsTheLastSendResult : Prop :=
  ∀ (is : List Instr) (s t : State), execAll is s = .next t →
    t.sendStatus =
      match (is.filterMap sendPayload).getLast? with
      | none => s.sendStatus
      | some payload =>
        match decodeR2 payload with
        | .ok _ => 0x00000000#32
        | .error _ => 0x01010101#32

/-- R201: a TxFrame event happens only inside a WR_SEND_FRAME of revision 2 whose payload decodes, once, and
carries what was decoded. -/
def Obligations.OnlySendFrameEmits : Prop :=
  ∀ (i : Instr) (s t : State), exec i s = .next t →
    t.txOut = s.txOut ∨
    ∃ payload f, i = .wrSendFrame payload ∧ s.params.rev = .rev2 ∧ decodeR2 payload = .ok f ∧
      Canonical f.dataLength f.data ∧ t.txOut = s.txOut ++ [⟨f.canId, f.dataLength, f.data⟩]

/-- R168 to R179: each of these host commands is not claimed; no data is driven and nothing else is written. -/
def Obligations.DispatcherRegistersAreUnclaimed : Prop :=
  ∀ (s : State) (n : Nat) (payload : List Byte) (i : Instr),
    i ∈ [.rdI2cAddress n, .wrI2cAddress payload, .rdCanBaudRate n, .wrCanBaudRate payload,
         .rdI2cAddressSet n, .wrI2cAddressSet payload, .rdMask0 n, .wrMask0 payload, .rdMask1 n,
         .wrMask1 payload, .rdFilt0 n, .wrFilt0 payload] →
    exec i s = .next { s with hostOut := s.hostOut ++ [⟨false, none⟩] }

/-- R180 to R189: each of these host commands is not claimed; no data is driven and nothing else is written. -/
def Obligations.FilterRegistersAreUnclaimed : Prop :=
  ∀ (s : State) (n : Nat) (payload : List Byte) (i : Instr),
    i ∈ [.rdFilt1 n, .wrFilt1 payload, .rdFilt2 n, .wrFilt2 payload, .rdFilt3 n, .wrFilt3 payload,
         .rdFilt4 n, .wrFilt4 payload, .rdFilt5 n, .wrFilt5 payload] →
    exec i s = .next { s with hostOut := s.hostOut ++ [⟨false, none⟩] }

/-- R190 to R193: 0x30 in revision 1, and every address that no row names, are not claimed; no data is driven
and nothing else is written. -/
def Obligations.OtherAddressesAreUnclaimed : Prop :=
  ∀ (s : State) (n : Nat) (payload : List Byte),
    (s.params.rev = .rev1 →
      exec (.rdUnclaimed30 n) s = .next { s with hostOut := s.hostOut ++ [⟨false, none⟩] } ∧
      exec (.wrUnclaimed30 payload) s = .next { s with hostOut := s.hostOut ++ [⟨false, none⟩] }) ∧
    (∀ addr : Byte,
      addr ∉ [0x01, 0x02, 0x03, 0x30, 0x40, 0x51, 0x60, 0x65, 0x70, 0x80, 0x90, 0xA0, 0xB0, 0xC0] →
      exec (.rdUnclaimed addr n) s = .next { s with hostOut := s.hostOut ++ [⟨false, none⟩] } ∧
      exec (.wrUnclaimed addr payload) s = .next { s with hostOut := s.hostOut ++ [⟨false, none⟩] })

/-- The model's choice (assumption log 13), from the conditions of R79: a row of the opcode map is refused
where its condition does not hold. -/
def Obligations.RowsAreAbsentWhereTheirConditionFails : Prop :=
  ∀ (s : State) (n : Nat) (payload : List Byte),
    (s.params.rev = .rev1 →
      exec (.wrSendFrame payload) s = .refused (.absentInRevision .rev1) ∧
      exec (.rdSendStatus n) s = .refused (.absentInRevision .rev1)) ∧
    (s.params.rev = .rev2 →
      exec (.wrUnclaimed30 payload) s = .refused (.absentInRevision .rev2) ∧
      exec (.rdUnclaimed30 n) s = .refused (.absentInRevision .rev2)) ∧
    (∀ addr : Byte,
      addr ∈ [0x01, 0x02, 0x03, 0x30, 0x40, 0x51, 0x60, 0x65, 0x70, 0x80, 0x90, 0xA0, 0xB0, 0xC0] →
      exec (.rdUnclaimed addr n) s = .refused (.namedByAnotherRow addr) ∧
      exec (.wrUnclaimed addr payload) s = .refused (.namedByAnotherRow addr))

/-! ## The whole machine -/

/-- R28, R55: only RX_FRAME and RD_RECEIVE_FRAME change the slot file, the index, head and count, and only
WR_SEND_FRAME changes SEND_STATUS. -/
def Obligations.OnlyInsertAndTakeNextChangeTheBuffer : Prop :=
  ∀ (i : Instr) (s t : State), exec i s = .next t →
    ((∀ r, i ≠ .rxFrame r) → (∀ n, i ≠ .rdReceiveFrame n) →
      t.slots = s.slots ∧ t.index = s.index ∧ t.head = s.head ∧ t.count = s.count) ∧
    ((∀ payload, i ≠ .wrSendFrame payload) → t.sendStatus = s.sendStatus)

/-- Every command leaves the pending events and the arbitration order as they are, and answers its own port
alone: a host command the host port, RX_FRAME the receive port, LOOKUP the lookup port (R40 to R44). -/
def Obligations.CommandsAnswerTheirOwnPort : Prop :=
  ∀ (i : Instr) (s t : State), exec i s = .next t →
    t.hostIn = s.hostIn ∧ t.rxIn = s.rxIn ∧ t.lookupIn = s.lookupIn ∧ t.resetIn = s.resetIn ∧
    t.schedule = s.schedule ∧ t.arbTick = s.arbTick ∧
    (match i with
      | .rxFrame _ => t.hostOut = s.hostOut ∧ t.lookupOut = s.lookupOut ∧ ∃ c, t.rxOut = s.rxOut ++ [c]
      | .lookup _ => t.hostOut = s.hostOut ∧ t.rxOut = s.rxOut ∧ ∃ a, t.lookupOut = s.lookupOut ++ [a]
      | _ => t.rxOut = s.rxOut ∧ t.lookupOut = s.lookupOut ∧ ∃ a, t.hostOut = s.hostOut ++ [a])

/-- A step runs the decoded command: when the next event's word and operands decode to `i`, the step is exec of
`i` on the state in which that event is no longer pending; and with no event pending nothing changes (the
model's choice, assumption log 6). -/
def Obligations.StepRunsTheDecodedCommand : Prop :=
  (∀ (s u : State) (e : Event) (w : BitVec 11) (ops : Operands) (i : Instr),
    s.fetch = some (e, u) → eventCommand e = some (w, ops) → decode s.params.rev w ops = .ok i →
    step s = exec i u) ∧
  (∀ s : State, s.fetch = none → step s = .next s)

/-- R56 (a), R226: the next event is the oldest of one port; no other port loses one, and nothing but the
arbitration changes. There is a next event exactly when some port has one. -/
def Obligations.NextEventIsTheOldestOfItsPort : Prop :=
  (∀ (s u : State) (e : Event), s.fetch = some (e, u) →
    hostEvents [e] ++ u.hostIn = s.hostIn ∧ rxEvents [e] ++ u.rxIn = s.rxIn ∧
    lookupEvents [e] ++ u.lookupIn = s.lookupIn ∧ resetEvents [e] + u.resetIn = s.resetIn ∧
    u.withoutPending = s.withoutPending) ∧
  (∀ s : State, s.fetch = none ↔ s.pendingCount = 0)

/-- R220, R222, R230: the block never traps. From every state, with every event pending at every port, a step
answers a next state. -/
def Obligations.EveryStepAnswersANextState : Prop := ∀ s : State, ∃ t, step s = .next t

/-- R56: the block's state and answers after any run are those of some events applied one at a time, in one
total order; the order keeps each port's own, and what is not applied is still pending. -/
def Obligations.RunsAreInterleavingsOfThePorts : Prop :=
  ∀ (n : Nat) (s t : State), Host.Core.run Sys2Proof.core n s = .next t →
    ∃ es : List Event, es.length ≤ n ∧
      (∃ u, applyAll es s.withoutPending = .next u ∧ u = t.withoutPending) ∧
      hostEvents es ++ t.hostIn = s.hostIn ∧ rxEvents es ++ t.rxIn = s.rxIn ∧
      lookupEvents es ++ t.lookupIn = s.lookupIn ∧ resetEvents es + t.resetIn = s.resetIn

/-- R56 (b), R226: every interleaving of the ports can happen. Whatever events are delivered, in whatever order
`es` lists them, the arbitration that serves the ports in that order applies them in that order, one at a time,
and leaves none pending. -/
def Obligations.EveryInterleavingCanHappen : Prop :=
  ∀ (s : State) (es : List Event), s.pendingCount = 0 →
    ∃ t, Host.Core.run Sys2Proof.core es.length
        { s.deliverAll es with schedule := es.map eventPort } = .next t ∧
      t.pendingCount = 0 ∧ applyAll es s.withoutPending = .next t.withoutPending

/-- R58, R262: every command completes in one step and none waits for another, so as many steps as there are
pending events apply them all, whatever the arbitration. -/
def Obligations.PendingEventsAreAllApplied : Prop :=
  ∀ s : State, ∃ t, Host.Core.run Sys2Proof.core s.pendingCount s = .next t ∧ t.pendingCount = 0

/-- R58, R262 (weak fairness as assumption log 18 renders it): in every fair run each delivered command is
eventually applied, however the deliveries at this and the other ports go on. After the delivery of `e` at move
`n`, some later step applies `e`, and between the two exactly the commands that its port had pending before it
are applied at that port: the step applies that very delivery. -/
def Obligations.DeliveredCommandsAreEventuallyApplied : Prop :=
  ∀ (p : Params) (moves : Nat → Move) (states : Nat → State), IsRun p moves states → WeaklyFair moves states →
    ∀ (n : Nat) (e : Event), moves n = .deliver e →
      ∃ (k : Nat) (u : State), moves (n + 1 + k) = .step ∧ (states (n + 1 + k)).fetch = some (e, u) ∧
        applyEvent e u = .next (states (n + 1 + k + 1)) ∧
        servedCount moves states (eventPort e) (n + 1) k = (states n).pendingAt (eventPort e)

/-- R58, R262 (assumption log 18): fairness shuts no command out and no finite run out. Every finite beginning
of a run goes on to a fair run, whatever commands are then delivered without end. -/
def Obligations.FairRunsExist : Prop :=
  ∀ (p : Params) (begun : Nat → Move) (n : Nat) (ds : Nat → Event),
    ∃ (moves : Nat → Move) (states : Nat → State), IsRun p moves states ∧ WeaklyFair moves states ∧
      (∀ i, i < n → moves i = begun i) ∧ ∀ k, moves (n + 3 * k) = .deliver (ds k)
end

