-- ==== Sys2Proof/Laws/State.lean ====
section
/-!
SUPPORT. What each update of the state leaves in each field: one lemma per field per update, by `rfl`.
-/

namespace Sys2Proof.Machine

/-! ### State.setSlot -/

@[simp] theorem State.setSlot_params (s : State) (p : Nat) (f : Frame) :
    (s.setSlot p f).params = s.params := rfl
@[simp] theorem State.setSlot_slots (s : State) (p : Nat) (f : Frame) :
    (s.setSlot p f).slots = s.slots.set p f := rfl
@[simp] theorem State.setSlot_index (s : State) (p : Nat) (f : Frame) :
    (s.setSlot p f).index = s.index := rfl
@[simp] theorem State.setSlot_head (s : State) (p : Nat) (f : Frame) :
    (s.setSlot p f).head = s.head := rfl
@[simp] theorem State.setSlot_count (s : State) (p : Nat) (f : Frame) :
    (s.setSlot p f).count = s.count := rfl
@[simp] theorem State.setSlot_sendStatus (s : State) (p : Nat) (f : Frame) :
    (s.setSlot p f).sendStatus = s.sendStatus := rfl
@[simp] theorem State.setSlot_hostIn (s : State) (p : Nat) (f : Frame) :
    (s.setSlot p f).hostIn = s.hostIn := rfl
@[simp] theorem State.setSlot_rxIn (s : State) (p : Nat) (f : Frame) :
    (s.setSlot p f).rxIn = s.rxIn := rfl
@[simp] theorem State.setSlot_lookupIn (s : State) (p : Nat) (f : Frame) :
    (s.setSlot p f).lookupIn = s.lookupIn := rfl
@[simp] theorem State.setSlot_resetIn (s : State) (p : Nat) (f : Frame) :
    (s.setSlot p f).resetIn = s.resetIn := rfl
@[simp] theorem State.setSlot_schedule (s : State) (p : Nat) (f : Frame) :
    (s.setSlot p f).schedule = s.schedule := rfl
@[simp] theorem State.setSlot_arbTick (s : State) (p : Nat) (f : Frame) :
    (s.setSlot p f).arbTick = s.arbTick := rfl
@[simp] theorem State.setSlot_hostOut (s : State) (p : Nat) (f : Frame) :
    (s.setSlot p f).hostOut = s.hostOut := rfl
@[simp] theorem State.setSlot_txOut (s : State) (p : Nat) (f : Frame) :
    (s.setSlot p f).txOut = s.txOut := rfl
@[simp] theorem State.setSlot_rxOut (s : State) (p : Nat) (f : Frame) :
    (s.setSlot p f).rxOut = s.rxOut := rfl
@[simp] theorem State.setSlot_lookupOut (s : State) (p : Nat) (f : Frame) :
    (s.setSlot p f).lookupOut = s.lookupOut := rfl

/-! ### State.setEntry -/

@[simp] theorem State.setEntry_params (s : State) (k : Nat) (e : IndexEntry) :
    (s.setEntry k e).params = s.params := rfl
@[simp] theorem State.setEntry_slots (s : State) (k : Nat) (e : IndexEntry) :
    (s.setEntry k e).slots = s.slots := rfl
@[simp] theorem State.setEntry_index (s : State) (k : Nat) (e : IndexEntry) :
    (s.setEntry k e).index = s.index.set k e := rfl
@[simp] theorem State.setEntry_head (s : State) (k : Nat) (e : IndexEntry) :
    (s.setEntry k e).head = s.head := rfl
@[simp] theorem State.setEntry_count (s : State) (k : Nat) (e : IndexEntry) :
    (s.setEntry k e).count = s.count := rfl
@[simp] theorem State.setEntry_sendStatus (s : State) (k : Nat) (e : IndexEntry) :
    (s.setEntry k e).sendStatus = s.sendStatus := rfl
@[simp] theorem State.setEntry_hostIn (s : State) (k : Nat) (e : IndexEntry) :
    (s.setEntry k e).hostIn = s.hostIn := rfl
@[simp] theorem State.setEntry_rxIn (s : State) (k : Nat) (e : IndexEntry) :
    (s.setEntry k e).rxIn = s.rxIn := rfl
@[simp] theorem State.setEntry_lookupIn (s : State) (k : Nat) (e : IndexEntry) :
    (s.setEntry k e).lookupIn = s.lookupIn := rfl
@[simp] theorem State.setEntry_resetIn (s : State) (k : Nat) (e : IndexEntry) :
    (s.setEntry k e).resetIn = s.resetIn := rfl
@[simp] theorem State.setEntry_schedule (s : State) (k : Nat) (e : IndexEntry) :
    (s.setEntry k e).schedule = s.schedule := rfl
@[simp] theorem State.setEntry_arbTick (s : State) (k : Nat) (e : IndexEntry) :
    (s.setEntry k e).arbTick = s.arbTick := rfl
@[simp] theorem State.setEntry_hostOut (s : State) (k : Nat) (e : IndexEntry) :
    (s.setEntry k e).hostOut = s.hostOut := rfl
@[simp] theorem State.setEntry_txOut (s : State) (k : Nat) (e : IndexEntry) :
    (s.setEntry k e).txOut = s.txOut := rfl
@[simp] theorem State.setEntry_rxOut (s : State) (k : Nat) (e : IndexEntry) :
    (s.setEntry k e).rxOut = s.rxOut := rfl
@[simp] theorem State.setEntry_lookupOut (s : State) (k : Nat) (e : IndexEntry) :
    (s.setEntry k e).lookupOut = s.lookupOut := rfl

/-! ### State.setSendStatus -/

@[simp] theorem State.setSendStatus_params (s : State) (w : Word) :
    (s.setSendStatus w).params = s.params := rfl
@[simp] theorem State.setSendStatus_slots (s : State) (w : Word) :
    (s.setSendStatus w).slots = s.slots := rfl
@[simp] theorem State.setSendStatus_index (s : State) (w : Word) :
    (s.setSendStatus w).index = s.index := rfl
@[simp] theorem State.setSendStatus_head (s : State) (w : Word) :
    (s.setSendStatus w).head = s.head := rfl
@[simp] theorem State.setSendStatus_count (s : State) (w : Word) :
    (s.setSendStatus w).count = s.count := rfl
@[simp] theorem State.setSendStatus_sendStatus (s : State) (w : Word) :
    (s.setSendStatus w).sendStatus = w := rfl
@[simp] theorem State.setSendStatus_hostIn (s : State) (w : Word) :
    (s.setSendStatus w).hostIn = s.hostIn := rfl
@[simp] theorem State.setSendStatus_rxIn (s : State) (w : Word) :
    (s.setSendStatus w).rxIn = s.rxIn := rfl
@[simp] theorem State.setSendStatus_lookupIn (s : State) (w : Word) :
    (s.setSendStatus w).lookupIn = s.lookupIn := rfl
@[simp] theorem State.setSendStatus_resetIn (s : State) (w : Word) :
    (s.setSendStatus w).resetIn = s.resetIn := rfl
@[simp] theorem State.setSendStatus_schedule (s : State) (w : Word) :
    (s.setSendStatus w).schedule = s.schedule := rfl
@[simp] theorem State.setSendStatus_arbTick (s : State) (w : Word) :
    (s.setSendStatus w).arbTick = s.arbTick := rfl
@[simp] theorem State.setSendStatus_hostOut (s : State) (w : Word) :
    (s.setSendStatus w).hostOut = s.hostOut := rfl
@[simp] theorem State.setSendStatus_txOut (s : State) (w : Word) :
    (s.setSendStatus w).txOut = s.txOut := rfl
@[simp] theorem State.setSendStatus_rxOut (s : State) (w : Word) :
    (s.setSendStatus w).rxOut = s.rxOut := rfl
@[simp] theorem State.setSendStatus_lookupOut (s : State) (w : Word) :
    (s.setSendStatus w).lookupOut = s.lookupOut := rfl

/-! ### State.answerHost -/

@[simp] theorem State.answerHost_params (s : State) (a : HostAnswer) :
    (s.answerHost a).params = s.params := rfl
@[simp] theorem State.answerHost_slots (s : State) (a : HostAnswer) :
    (s.answerHost a).slots = s.slots := rfl
@[simp] theorem State.answerHost_index (s : State) (a : HostAnswer) :
    (s.answerHost a).index = s.index := rfl
@[simp] theorem State.answerHost_head (s : State) (a : HostAnswer) :
    (s.answerHost a).head = s.head := rfl
@[simp] theorem State.answerHost_count (s : State) (a : HostAnswer) :
    (s.answerHost a).count = s.count := rfl
@[simp] theorem State.answerHost_sendStatus (s : State) (a : HostAnswer) :
    (s.answerHost a).sendStatus = s.sendStatus := rfl
@[simp] theorem State.answerHost_hostIn (s : State) (a : HostAnswer) :
    (s.answerHost a).hostIn = s.hostIn := rfl
@[simp] theorem State.answerHost_rxIn (s : State) (a : HostAnswer) :
    (s.answerHost a).rxIn = s.rxIn := rfl
@[simp] theorem State.answerHost_lookupIn (s : State) (a : HostAnswer) :
    (s.answerHost a).lookupIn = s.lookupIn := rfl
@[simp] theorem State.answerHost_resetIn (s : State) (a : HostAnswer) :
    (s.answerHost a).resetIn = s.resetIn := rfl
@[simp] theorem State.answerHost_schedule (s : State) (a : HostAnswer) :
    (s.answerHost a).schedule = s.schedule := rfl
@[simp] theorem State.answerHost_arbTick (s : State) (a : HostAnswer) :
    (s.answerHost a).arbTick = s.arbTick := rfl
@[simp] theorem State.answerHost_hostOut (s : State) (a : HostAnswer) :
    (s.answerHost a).hostOut = s.hostOut ++ [a] := rfl
@[simp] theorem State.answerHost_txOut (s : State) (a : HostAnswer) :
    (s.answerHost a).txOut = s.txOut := rfl
@[simp] theorem State.answerHost_rxOut (s : State) (a : HostAnswer) :
    (s.answerHost a).rxOut = s.rxOut := rfl
@[simp] theorem State.answerHost_lookupOut (s : State) (a : HostAnswer) :
    (s.answerHost a).lookupOut = s.lookupOut := rfl

/-! ### State.emitTx -/

@[simp] theorem State.emitTx_params (s : State) (f : WireFrame) :
    (s.emitTx f).params = s.params := rfl
@[simp] theorem State.emitTx_slots (s : State) (f : WireFrame) :
    (s.emitTx f).slots = s.slots := rfl
@[simp] theorem State.emitTx_index (s : State) (f : WireFrame) :
    (s.emitTx f).index = s.index := rfl
@[simp] theorem State.emitTx_head (s : State) (f : WireFrame) :
    (s.emitTx f).head = s.head := rfl
@[simp] theorem State.emitTx_count (s : State) (f : WireFrame) :
    (s.emitTx f).count = s.count := rfl
@[simp] theorem State.emitTx_sendStatus (s : State) (f : WireFrame) :
    (s.emitTx f).sendStatus = s.sendStatus := rfl
@[simp] theorem State.emitTx_hostIn (s : State) (f : WireFrame) :
    (s.emitTx f).hostIn = s.hostIn := rfl
@[simp] theorem State.emitTx_rxIn (s : State) (f : WireFrame) :
    (s.emitTx f).rxIn = s.rxIn := rfl
@[simp] theorem State.emitTx_lookupIn (s : State) (f : WireFrame) :
    (s.emitTx f).lookupIn = s.lookupIn := rfl
@[simp] theorem State.emitTx_resetIn (s : State) (f : WireFrame) :
    (s.emitTx f).resetIn = s.resetIn := rfl
@[simp] theorem State.emitTx_schedule (s : State) (f : WireFrame) :
    (s.emitTx f).schedule = s.schedule := rfl
@[simp] theorem State.emitTx_arbTick (s : State) (f : WireFrame) :
    (s.emitTx f).arbTick = s.arbTick := rfl
@[simp] theorem State.emitTx_hostOut (s : State) (f : WireFrame) :
    (s.emitTx f).hostOut = s.hostOut := rfl
@[simp] theorem State.emitTx_txOut (s : State) (f : WireFrame) :
    (s.emitTx f).txOut = s.txOut ++ [⟨f.canId, f.dataLength, f.data⟩] := rfl
@[simp] theorem State.emitTx_rxOut (s : State) (f : WireFrame) :
    (s.emitTx f).rxOut = s.rxOut := rfl
@[simp] theorem State.emitTx_lookupOut (s : State) (f : WireFrame) :
    (s.emitTx f).lookupOut = s.lookupOut := rfl

/-! ### State.driveRx -/

@[simp] theorem State.driveRx_params (s : State) (o : RxOutcome) :
    (s.driveRx o).params = s.params := rfl
@[simp] theorem State.driveRx_slots (s : State) (o : RxOutcome) :
    (s.driveRx o).slots = s.slots := rfl
@[simp] theorem State.driveRx_index (s : State) (o : RxOutcome) :
    (s.driveRx o).index = s.index := rfl
@[simp] theorem State.driveRx_head (s : State) (o : RxOutcome) :
    (s.driveRx o).head = s.head := rfl
@[simp] theorem State.driveRx_count (s : State) (o : RxOutcome) :
    (s.driveRx o).count = s.count := rfl
@[simp] theorem State.driveRx_sendStatus (s : State) (o : RxOutcome) :
    (s.driveRx o).sendStatus = s.sendStatus := rfl
@[simp] theorem State.driveRx_hostIn (s : State) (o : RxOutcome) :
    (s.driveRx o).hostIn = s.hostIn := rfl
@[simp] theorem State.driveRx_rxIn (s : State) (o : RxOutcome) :
    (s.driveRx o).rxIn = s.rxIn := rfl
@[simp] theorem State.driveRx_lookupIn (s : State) (o : RxOutcome) :
    (s.driveRx o).lookupIn = s.lookupIn := rfl
@[simp] theorem State.driveRx_resetIn (s : State) (o : RxOutcome) :
    (s.driveRx o).resetIn = s.resetIn := rfl
@[simp] theorem State.driveRx_schedule (s : State) (o : RxOutcome) :
    (s.driveRx o).schedule = s.schedule := rfl
@[simp] theorem State.driveRx_arbTick (s : State) (o : RxOutcome) :
    (s.driveRx o).arbTick = s.arbTick := rfl
@[simp] theorem State.driveRx_hostOut (s : State) (o : RxOutcome) :
    (s.driveRx o).hostOut = s.hostOut := rfl
@[simp] theorem State.driveRx_txOut (s : State) (o : RxOutcome) :
    (s.driveRx o).txOut = s.txOut := rfl
@[simp] theorem State.driveRx_rxOut (s : State) (o : RxOutcome) :
    (s.driveRx o).rxOut = s.rxOut ++ [rxCode o] := rfl
@[simp] theorem State.driveRx_lookupOut (s : State) (o : RxOutcome) :
    (s.driveRx o).lookupOut = s.lookupOut := rfl

/-! ### State.answerLookup -/

@[simp] theorem State.answerLookup_params (s : State) (a : Option Frame) :
    (s.answerLookup a).params = s.params := rfl
@[simp] theorem State.answerLookup_slots (s : State) (a : Option Frame) :
    (s.answerLookup a).slots = s.slots := rfl
@[simp] theorem State.answerLookup_index (s : State) (a : Option Frame) :
    (s.answerLookup a).index = s.index := rfl
@[simp] theorem State.answerLookup_head (s : State) (a : Option Frame) :
    (s.answerLookup a).head = s.head := rfl
@[simp] theorem State.answerLookup_count (s : State) (a : Option Frame) :
    (s.answerLookup a).count = s.count := rfl
@[simp] theorem State.answerLookup_sendStatus (s : State) (a : Option Frame) :
    (s.answerLookup a).sendStatus = s.sendStatus := rfl
@[simp] theorem State.answerLookup_hostIn (s : State) (a : Option Frame) :
    (s.answerLookup a).hostIn = s.hostIn := rfl
@[simp] theorem State.answerLookup_rxIn (s : State) (a : Option Frame) :
    (s.answerLookup a).rxIn = s.rxIn := rfl
@[simp] theorem State.answerLookup_lookupIn (s : State) (a : Option Frame) :
    (s.answerLookup a).lookupIn = s.lookupIn := rfl
@[simp] theorem State.answerLookup_resetIn (s : State) (a : Option Frame) :
    (s.answerLookup a).resetIn = s.resetIn := rfl
@[simp] theorem State.answerLookup_schedule (s : State) (a : Option Frame) :
    (s.answerLookup a).schedule = s.schedule := rfl
@[simp] theorem State.answerLookup_arbTick (s : State) (a : Option Frame) :
    (s.answerLookup a).arbTick = s.arbTick := rfl
@[simp] theorem State.answerLookup_hostOut (s : State) (a : Option Frame) :
    (s.answerLookup a).hostOut = s.hostOut := rfl
@[simp] theorem State.answerLookup_txOut (s : State) (a : Option Frame) :
    (s.answerLookup a).txOut = s.txOut := rfl
@[simp] theorem State.answerLookup_rxOut (s : State) (a : Option Frame) :
    (s.answerLookup a).rxOut = s.rxOut := rfl
@[simp] theorem State.answerLookup_lookupOut (s : State) (a : Option Frame) :
    (s.answerLookup a).lookupOut = s.lookupOut ++ [a] := rfl

/-! ### State.nextTurn -/

@[simp] theorem State.nextTurn_params (s : State) :
    s.nextTurn.params = s.params := rfl
@[simp] theorem State.nextTurn_slots (s : State) :
    s.nextTurn.slots = s.slots := rfl
@[simp] theorem State.nextTurn_index (s : State) :
    s.nextTurn.index = s.index := rfl
@[simp] theorem State.nextTurn_head (s : State) :
    s.nextTurn.head = s.head := rfl
@[simp] theorem State.nextTurn_count (s : State) :
    s.nextTurn.count = s.count := rfl
@[simp] theorem State.nextTurn_sendStatus (s : State) :
    s.nextTurn.sendStatus = s.sendStatus := rfl
@[simp] theorem State.nextTurn_hostIn (s : State) :
    s.nextTurn.hostIn = s.hostIn := rfl
@[simp] theorem State.nextTurn_rxIn (s : State) :
    s.nextTurn.rxIn = s.rxIn := rfl
@[simp] theorem State.nextTurn_lookupIn (s : State) :
    s.nextTurn.lookupIn = s.lookupIn := rfl
@[simp] theorem State.nextTurn_resetIn (s : State) :
    s.nextTurn.resetIn = s.resetIn := rfl
@[simp] theorem State.nextTurn_schedule (s : State) :
    s.nextTurn.schedule = s.schedule.tail := rfl
@[simp] theorem State.nextTurn_arbTick (s : State) :
    s.nextTurn.arbTick = s.arbTick + 1 := rfl
@[simp] theorem State.nextTurn_hostOut (s : State) :
    s.nextTurn.hostOut = s.hostOut := rfl
@[simp] theorem State.nextTurn_txOut (s : State) :
    s.nextTurn.txOut = s.txOut := rfl
@[simp] theorem State.nextTurn_rxOut (s : State) :
    s.nextTurn.rxOut = s.rxOut := rfl
@[simp] theorem State.nextTurn_lookupOut (s : State) :
    s.nextTurn.lookupOut = s.lookupOut := rfl

/-! ### State.resetBlock -/

@[simp] theorem State.resetBlock_params (s : State) :
    s.resetBlock.params = s.params := rfl
@[simp] theorem State.resetBlock_slots (s : State) :
    s.resetBlock.slots = List.replicate s.params.capacity Frame.free := rfl
@[simp] theorem State.resetBlock_index (s : State) :
    s.resetBlock.index = List.replicate s.params.capacity IndexEntry.empty := rfl
@[simp] theorem State.resetBlock_head (s : State) :
    s.resetBlock.head = 0 := rfl
@[simp] theorem State.resetBlock_count (s : State) :
    s.resetBlock.count = 0 := rfl
@[simp] theorem State.resetBlock_sendStatus (s : State) :
    s.resetBlock.sendStatus = sendOk := rfl
@[simp] theorem State.resetBlock_hostIn (s : State) :
    s.resetBlock.hostIn = s.hostIn := rfl
@[simp] theorem State.resetBlock_rxIn (s : State) :
    s.resetBlock.rxIn = s.rxIn := rfl
@[simp] theorem State.resetBlock_lookupIn (s : State) :
    s.resetBlock.lookupIn = s.lookupIn := rfl
@[simp] theorem State.resetBlock_resetIn (s : State) :
    s.resetBlock.resetIn = s.resetIn := rfl
@[simp] theorem State.resetBlock_schedule (s : State) :
    s.resetBlock.schedule = s.schedule := rfl
@[simp] theorem State.resetBlock_arbTick (s : State) :
    s.resetBlock.arbTick = s.arbTick := rfl
@[simp] theorem State.resetBlock_hostOut (s : State) :
    s.resetBlock.hostOut = s.hostOut := rfl
@[simp] theorem State.resetBlock_txOut (s : State) :
    s.resetBlock.txOut = s.txOut := rfl
@[simp] theorem State.resetBlock_rxOut (s : State) :
    s.resetBlock.rxOut = s.rxOut := rfl
@[simp] theorem State.resetBlock_lookupOut (s : State) :
    s.resetBlock.lookupOut = s.lookupOut := rfl

/-! ### State.withoutPending -/

@[simp] theorem State.withoutPending_params (s : State) :
    s.withoutPending.params = s.params := rfl
@[simp] theorem State.withoutPending_slots (s : State) :
    s.withoutPending.slots = s.slots := rfl
@[simp] theorem State.withoutPending_index (s : State) :
    s.withoutPending.index = s.index := rfl
@[simp] theorem State.withoutPending_head (s : State) :
    s.withoutPending.head = s.head := rfl
@[simp] theorem State.withoutPending_count (s : State) :
    s.withoutPending.count = s.count := rfl
@[simp] theorem State.withoutPending_sendStatus (s : State) :
    s.withoutPending.sendStatus = s.sendStatus := rfl
@[simp] theorem State.withoutPending_hostIn (s : State) :
    s.withoutPending.hostIn = [] := rfl
@[simp] theorem State.withoutPending_rxIn (s : State) :
    s.withoutPending.rxIn = [] := rfl
@[simp] theorem State.withoutPending_lookupIn (s : State) :
    s.withoutPending.lookupIn = [] := rfl
@[simp] theorem State.withoutPending_resetIn (s : State) :
    s.withoutPending.resetIn = 0 := rfl
@[simp] theorem State.withoutPending_schedule (s : State) :
    s.withoutPending.schedule = [] := rfl
@[simp] theorem State.withoutPending_arbTick (s : State) :
    s.withoutPending.arbTick = 0 := rfl
@[simp] theorem State.withoutPending_hostOut (s : State) :
    s.withoutPending.hostOut = s.hostOut := rfl
@[simp] theorem State.withoutPending_txOut (s : State) :
    s.withoutPending.txOut = s.txOut := rfl
@[simp] theorem State.withoutPending_rxOut (s : State) :
    s.withoutPending.rxOut = s.rxOut := rfl
@[simp] theorem State.withoutPending_lookupOut (s : State) :
    s.withoutPending.lookupOut = s.lookupOut := rfl

/-! ### A slot and an entry after an update of the other file -/

@[simp] theorem State.setSlot_entry (s : State) (p : Nat) (f : Frame) (k : Nat) :
    (s.setSlot p f).entry k = s.entry k := rfl

@[simp] theorem State.setEntry_slot (s : State) (k : Nat) (e : IndexEntry) (p : Nat) :
    (s.setEntry k e).slot p = s.slot p := rfl

@[simp] theorem State.setSlot_ringPos (s : State) (p : Nat) (f : Frame) (j : Nat) :
    (s.setSlot p f).ringPos j = s.ringPos j := rfl

@[simp] theorem State.setEntry_ringPos (s : State) (k : Nat) (e : IndexEntry) (j : Nat) :
    (s.setEntry k e).ringPos j = s.ringPos j := rfl

end Sys2Proof.Machine
end

