-- ==== Sys2Proof/Laws/Buffer.lean ====
section
/-!
SUPPORT. What the buffer operations do: the CAM search, the ring positions, `remove_head`, the allocation and
the update, each said once, and that each keeps the invariants of R27.
-/

namespace Sys2Proof.Machine

/-! ## Slots and entries -/

theorem State.slot_eq_getElem (s : State) (p : Nat) (h : p < s.slots.length) : s.slot p = s.slots[p] := by
  simp [State.slot, h]

theorem State.entry_eq_getElem (s : State) (k : Nat) (h : k < s.index.length) : s.entry k = s.index[k] := by
  simp [State.entry, h]

theorem State.slot_setSlot (s : State) (p : Nat) (f : Frame) (q : Nat) (h : p < s.slots.length) :
    (s.setSlot p f).slot q = if q = p then f else s.slot q := by
  by_cases hq : q = p
  · subst hq; simp [State.slot, h]
  · simp [State.slot, hq, List.getElem?_set_ne (Ne.symm hq)]

theorem State.entry_setEntry (s : State) (k : Nat) (e : IndexEntry) (k' : Nat) (h : k < s.index.length) :
    (s.setEntry k e).entry k' = if k' = k then e else s.entry k' := by
  by_cases hq : k' = k
  · subst hq; simp [State.entry, h]
  · simp [State.entry, hq, List.getElem?_set_ne (Ne.symm hq)]

/-! ## The CAM -/

theorem State.camFind_some {s : State} {id : Word} {k : Nat} (h : s.camFind id = some k) :
    id ≠ idEmpty ∧ k < s.index.length ∧ (s.entry k).key = id ∧ ∀ k', k' < k → (s.entry k').key ≠ id := by
  unfold State.camFind at h
  split at h
  · cases h
  · rename_i hid
    rw [List.findIdx?_eq_some_iff_getElem] at h
    obtain ⟨hk, hkey, hlt⟩ := h
    refine ⟨hid, hk, ?_, ?_⟩
    · rw [State.entry_eq_getElem s k hk]; simpa using hkey
    · intro k' hk'
      rw [State.entry_eq_getElem s k' (by omega)]
      simpa using hlt k' hk'

theorem State.camFind_none {s : State} {id : Word} (h : s.camFind id = none) (hid : id ≠ idEmpty) (k : Nat)
    (hk : k < s.index.length) : (s.entry k).key ≠ id := by
  unfold State.camFind at h
  rw [if_neg hid, List.findIdx?_eq_none_iff] at h
  rw [State.entry_eq_getElem s k hk]
  simpa using h _ (List.getElem_mem hk)

theorem State.camFind_eq_none {s : State} {id : Word} (h : ∀ k, k < s.index.length → (s.entry k).key ≠ id) :
    s.camFind id = none := by
  cases hc : s.camFind id with
  | none => rfl
  | some k => exact absurd (State.camFind_some hc).2.2.1 (h k (State.camFind_some hc).2.1)

theorem State.camAlloc_some {s : State} {k : Nat} (h : s.camAlloc = some k) :
    k < s.index.length ∧ (s.entry k).key = idEmpty ∧ ∀ k', k' < k → (s.entry k').key ≠ idEmpty := by
  unfold State.camAlloc at h
  rw [List.findIdx?_eq_some_iff_getElem] at h
  obtain ⟨hk, hkey, hlt⟩ := h
  refine ⟨hk, ?_, ?_⟩
  · rw [State.entry_eq_getElem s k hk]; simpa using hkey
  · intro k' hk'
    rw [State.entry_eq_getElem s k' (by omega)]
    simpa using hlt k' hk'

theorem State.camAlloc_none {s : State} (h : s.camAlloc = none) (k : Nat) (hk : k < s.index.length) :
    (s.entry k).key ≠ idEmpty := by
  unfold State.camAlloc at h
  rw [List.findIdx?_eq_none_iff] at h
  rw [State.entry_eq_getElem s k hk]
  simpa using h _ (List.getElem_mem hk)

theorem State.camAlloc_eq {s : State} {k : Nat} (hk : k < s.index.length) (he : (s.entry k).key = idEmpty)
    (hlt : ∀ k', k' < k → (s.entry k').key ≠ idEmpty) : s.camAlloc = some k := by
  cases hc : s.camAlloc with
  | none => exact absurd he (State.camAlloc_none hc k hk)
  | some m =>
    obtain ⟨_, hm, hml⟩ := State.camAlloc_some hc
    rcases Nat.lt_trichotomy k m with h | h | h
    · exact absurd he (hml k h)
    · rw [h]
    · exact absurd hm (hlt m h)

/-! ## The ring -/

theorem State.ringPos_lt (s : State) (h : 1 ≤ s.params.capacity) (j : Nat) :
    s.ringPos j < s.params.capacity := Nat.mod_lt _ (by omega)

theorem State.ringPos_inj (s : State) {i j : Nat} (hi : i < s.params.capacity) (hj : j < s.params.capacity)
    (h : s.ringPos i = s.ringPos j) : i = j := by
  have h' : i ≡ j [MOD s.params.capacity] := Nat.ModEq.add_left_cancel' s.head.toNat h
  exact Nat.ModEq.eq_of_lt_of_lt h' hi hj

theorem State.ringPos_zero (s : State) (h : s.head.toNat < s.params.capacity) :
    s.ringPos 0 = s.head.toNat := by simp [State.ringPos, Nat.mod_eq_of_lt h]

theorem toNat_ofNat_of_lt {n : Nat} (h : n ≤ 255) : (BitVec.ofNat 8 n).toNat = n := by
  rw [BitVec.toNat_ofNat]; exact Nat.mod_eq_of_lt (by omega)

theorem count_toNat_pred {c : Byte} (h : c ≠ 0) : (c - 1).toNat = c.toNat - 1 := by
  have : c.toNat ≠ 0 := fun h0 => h (BitVec.eq_of_toNat_eq (by simpa using h0))
  bv_omega

theorem count_toNat_succ {c : Byte} (h : c.toNat < 255) : (c + 1).toNat = c.toNat + 1 := by bv_omega

theorem count_pos_iff {c : Byte} : c ≠ 0 ↔ 0 < c.toNat := by
  constructor
  · intro h
    have : c.toNat ≠ 0 := fun h0 => h (BitVec.eq_of_toNat_eq (by simpa using h0))
    omega
  · rintro h rfl; simp at h

/-! ## What a state that meets the invariants holds -/

namespace State.Inv

variable {s : State}

theorem headLive (hs : s.Inv) (hc : s.count ≠ 0) : (s.slot s.head.toNat).isSent = false :=
  (hs.liveIff _ hs.headLt).2 ⟨0, count_pos_iff.1 hc, (s.ringPos_zero hs.headLt).symm⟩

theorem ringLive (hs : s.Inv) {j : Nat} (hj : j < s.count.toNat) : (s.slot (s.ringPos j)).isSent = false :=
  (hs.liveIff _ (s.ringPos_lt hs.paramsWf.1 j)).2 ⟨j, hj, rfl⟩

theorem liveIdNeEmpty (hs : s.Inv) {p : Nat} (hp : p < s.params.capacity) (hl : (s.slot p).isSent = false) :
    (s.slot p).canId ≠ idEmpty := by
  have := (hs.liveStorable p hp hl).2.2.1
  intro h
  rw [h] at this
  exact absurd this (by decide)

theorem camFind_eq (hs : s.Inv) {k : Nat} (hk : k < s.params.capacity) {id : Word}
    (hkey : (s.entry k).key = id) (hid : id ≠ idEmpty) : s.camFind id = some k := by
  cases hc : s.camFind id with
  | none => exact absurd hkey (State.camFind_none hc hid k (by rw [hs.indexLength]; exact hk))
  | some m =>
    obtain ⟨_, hm, hmk, _⟩ := State.camFind_some hc
    rw [hs.indexLength] at hm
    rw [hs.keysDistinct k hk m hm (by rw [hkey]; exact hid) (by rw [hkey, hmk])]

/-- The index entry of a live slot (I3), as the CAM search finds it. -/
theorem camFind_live (hs : s.Inv) {p : Nat} (hp : p < s.params.capacity) (hl : (s.slot p).isSent = false) :
    ∃ k, k < s.params.capacity ∧ s.camFind (s.slot p).canId = some k ∧ (s.entry k).pos.toNat = p ∧
      (s.entry k).key = (s.slot p).canId := by
  obtain ⟨k, hk, hne, hpos⟩ := hs.liveEntry p hp hl
  have hkey := (hs.entryLive k hk hne).2.2
  rw [hpos] at hkey
  exact ⟨k, hk, hs.camFind_eq hk hkey.symm (hs.liveIdNeEmpty hp hl), hpos, hkey.symm⟩

/-- A search that hits finds a live slot that holds the identifier (I3). -/
theorem camFind_hit (hs : s.Inv) {id : Word} {k : Nat} (h : s.camFind id = some k) :
    k < s.params.capacity ∧ (s.entry k).pos.toNat < s.params.capacity ∧
      (s.slot (s.entry k).pos.toNat).isSent = false ∧ (s.slot (s.entry k).pos.toNat).canId = id ∧
      (s.entry k).key = id := by
  obtain ⟨hid, hk, hkey, _⟩ := State.camFind_some h
  rw [hs.indexLength] at hk
  obtain ⟨h1, h2, h3⟩ := hs.entryLive k hk (by rw [hkey]; exact hid)
  exact ⟨hk, h1, h2, h3.trans hkey, hkey⟩

/-- While a slot is free, an index entry is empty (I4). -/
theorem camAlloc_isSome (hs : s.Inv) (hc : s.count.toNat < s.params.capacity) :
    ∃ k, k < s.params.capacity ∧ s.camAlloc = some k := by
  cases h : s.camAlloc with
  | some k =>
    have := (State.camAlloc_some h).1
    rw [hs.indexLength] at this
    exact ⟨k, this, rfl⟩
  | none =>
    exfalso
    have hall : s.index.countP (fun e => e.key != idEmpty) = s.index.length := by
      rw [List.countP_eq_length]
      intro e he
      obtain ⟨k, hk, rfl⟩ := List.getElem_of_mem he
      have := State.camAlloc_none h k hk
      rw [State.entry_eq_getElem s k hk] at this
      simpa using this
    rw [hs.entryCount, hs.indexLength] at hall
    omega

/-- (I6): no two live slots hold the same canId. -/
theorem idsDistinct (hs : s.Inv) {p q : Nat} (hp : p < s.params.capacity) (hq : q < s.params.capacity)
    (hlp : (s.slot p).isSent = false) (hlq : (s.slot q).isSent = false)
    (h : (s.slot p).canId = (s.slot q).canId) : p = q := by
  obtain ⟨k, _, hk, hkp, _⟩ := hs.camFind_live hp hlp
  obtain ⟨m, _, hm, hmq, _⟩ := hs.camFind_live hq hlq
  rw [h, hm] at hk
  cases hk
  omega

end State.Inv

/-! ## The operations, written out -/

theorem State.removeHead_eq {s : State} (hs : s.Inv) (hc : s.count ≠ 0) :
    ∃ k, k < s.params.capacity ∧ s.camFind (s.slot s.head.toNat).canId = some k ∧
      (s.entry k).pos.toNat = s.head.toNat ∧ (s.entry k).key = (s.slot s.head.toNat).canId ∧
      s.removeHead =
        { s with
          slots := s.slots.set s.head.toNat (markFree (s.slot s.head.toNat))
          index := s.index.set k (markEmpty (s.entry k))
          head := BitVec.ofNat 8 (s.ringPos 1)
          count := s.count - 1 } := by
  obtain ⟨k, hk, hf, hpos, hkey⟩ := hs.camFind_live hs.headLt (hs.headLive hc)
  refine ⟨k, hk, hf, hpos, hkey, ?_⟩
  simp only [State.removeHead, State.freeHeadEntry, hf]
  rfl

theorem State.allocate_eq {s : State} {k : Nat} (h : s.camAlloc = some k) (f : Frame) :
    s.allocate f =
      { s with
        slots := s.slots.set (s.ringPos s.count.toNat) f
        index := s.index.set k { key := f.canId, pos := BitVec.ofNat 8 (s.ringPos s.count.toNat) }
        count := s.count + 1 } := by
  simp only [State.allocate, State.takeEntry, h]
  rfl

/-! ## Each operation keeps the invariants -/

theorem countP_keys_set {l : List IndexEntry} {k : Nat} (hk : k < l.length) (e : IndexEntry) :
    (l.set k e).countP (fun e => e.key != idEmpty) + (if l[k].key = idEmpty then 0 else 1) =
      l.countP (fun e => e.key != idEmpty) + (if e.key = idEmpty then 0 else 1) := by
  have hp : (if l[k].key = idEmpty then 0 else 1) ≤ l.countP (fun e => e.key != idEmpty) := by
    split
    · omega
    · rename_i hne
      exact List.countP_pos_iff.2 ⟨l[k], List.getElem_mem hk, by simpa using hne⟩
  rw [List.countP_set hk]
  by_cases h1 : l[k].key = idEmpty <;> by_cases h2 : e.key = idEmpty <;> simp_all

/-- `remove_head` keeps the invariants (R27, R139). -/
theorem State.removeHead_inv {s : State} (hs : s.Inv) (hc : s.count ≠ 0) : s.removeHead.Inv := by
  obtain ⟨k, hk, _, hkpos, hkkey, heq⟩ := State.removeHead_eq hs hc
  have hcap := hs.paramsWf
  have hc0 := count_pos_iff.1 hc
  have hcl := hs.countLe
  have hhead := hs.headLt
  have hkne : (s.entry k).key ≠ idEmpty := by
    rw [hkkey]; exact hs.liveIdNeEmpty hs.headLt (hs.headLive hc)
  have hslot : ∀ p, (s.removeHead).slot p =
      if p = s.head.toNat then markFree (s.slot s.head.toNat) else s.slot p := by
    intro p
    rw [heq]
    exact State.slot_setSlot s _ _ p (by rw [hs.slotsLength]; exact hhead)
  have hentry : ∀ m, (s.removeHead).entry m = if m = k then markEmpty (s.entry k) else s.entry m := by
    intro m
    rw [heq]
    exact State.entry_setEntry s _ _ m (by rw [hs.indexLength]; exact hk)
  have hlive : ∀ p, ((s.removeHead).slot p).isSent = false ↔
      (p ≠ s.head.toNat ∧ (s.slot p).isSent = false) := by
    intro p
    rw [hslot]
    by_cases hp : p = s.head.toNat <;> simp [hp, markFree]
  have hpar : s.removeHead.params = s.params := by rw [heq]
  have hh : s.removeHead.head.toNat = s.ringPos 1 := by
    rw [heq]
    exact toNat_ofNat_of_lt (by have := s.ringPos_lt hcap.1 1; omega)
  have hcnt : s.removeHead.count.toNat = s.count.toNat - 1 := by rw [heq]; exact count_toNat_pred hc
  have hring : ∀ j, s.removeHead.ringPos j = s.ringPos (j + 1) := by
    intro j
    unfold State.ringPos at hh ⊢
    rw [hpar, hh, Nat.mod_add_mod]
    congr 1
    omega
  have hkey : ∀ m, (s.removeHead.entry m).key ≠ idEmpty → m ≠ k ∧ s.removeHead.entry m = s.entry m := by
    intro m hm
    rw [hentry] at hm ⊢
    by_cases hmk : m = k
    · rw [if_pos hmk] at hm
      exact absurd rfl hm
    · simp [hmk]
  refine
    { paramsWf := by rw [hpar]; exact hcap
      slotsLength := by rw [heq]; simpa using hs.slotsLength
      indexLength := by rw [heq]; simpa using hs.indexLength
      headLt := by rw [hh, hpar]; exact s.ringPos_lt hcap.1 1
      countLe := by rw [hcnt, hpar]; omega
      liveIff := ?_, keysDistinct := ?_, entryLive := ?_, liveEntry := ?_, entryCount := ?_
      liveStorable := ?_
      statusLegal := by rw [heq]; exact hs.statusLegal }
  · intro p hp
    rw [hpar] at hp
    rw [hlive, hs.liveIff p hp]
    constructor
    · rintro ⟨hne, j, hj, rfl⟩
      have hj0 : j ≠ 0 := fun h => hne (by rw [h, s.ringPos_zero hhead])
      refine ⟨j - 1, by omega, ?_⟩
      rw [hring]
      congr 1
      omega
    · rintro ⟨j, hj, rfl⟩
      rw [hcnt] at hj
      rw [hring]
      refine ⟨?_, j + 1, by omega, rfl⟩
      rw [← s.ringPos_zero hhead]
      intro h
      have := s.ringPos_inj (by omega) (by omega) h
      omega
  · intro a ha b hb hne hab
    rw [hpar] at ha hb
    have hbne : (s.removeHead.entry b).key ≠ idEmpty := by rw [← hab]; exact hne
    have hae := (hkey a hne).2
    rw [hae] at hne hab
    rw [(hkey b hbne).2] at hab
    exact hs.keysDistinct a ha b hb hne hab
  · intro m hm hne
    rw [hpar] at hm ⊢
    obtain ⟨hmk, hme⟩ := hkey m hne
    rw [hme] at hne ⊢
    obtain ⟨h1, h2, h3⟩ := hs.entryLive m hm hne
    have hph : (s.entry m).pos.toNat ≠ s.head.toNat := by
      intro h
      rw [h] at h3
      exact hmk (hs.keysDistinct m hm k hk hne (by rw [← h3, hkkey]))
    refine ⟨h1, (hlive _).2 ⟨hph, h2⟩, ?_⟩
    rw [hslot, if_neg hph]
    exact h3
  · intro p hp hl
    rw [hpar] at hp
    obtain ⟨hne, hl'⟩ := (hlive p).1 hl
    obtain ⟨m, hm, hmne, hmp⟩ := hs.liveEntry p hp hl'
    have hmk : m ≠ k := by
      rintro rfl
      exact hne (by rw [← hmp, hkpos])
    have hme : s.removeHead.entry m = s.entry m := by rw [hentry, if_neg hmk]
    exact ⟨m, by rw [hpar]; exact hm, by rw [hme]; exact hmne, by rw [hme]; exact hmp⟩
  · have hk' : k < s.index.length := by rw [hs.indexLength]; exact hk
    have h := countP_keys_set hk' (markEmpty (s.entry k))
    rw [← State.entry_eq_getElem s k hk', if_neg hkne, hs.entryCount, if_pos (show (markEmpty (s.entry k)).key = idEmpty from rfl)] at h
    rw [hcnt, heq]
    show (s.index.set k (markEmpty (s.entry k))).countP _ = _
    omega
  · intro p hp hl
    rw [hpar] at hp ⊢
    obtain ⟨hne, hl'⟩ := (hlive p).1 hl
    rw [hslot, if_neg hne]
    exact hs.liveStorable p hp hl'

/-- The allocation keeps the invariants (R27, R133): a free slot, a storable frame, and an identifier that no
entry maps. -/
theorem State.allocate_inv {s : State} (hs : s.Inv) (hc : s.count.toNat < s.params.capacity) {f : Frame}
    (hf : Storable s.params.rev f) (hl : f.isSent = false)
    (hnew : ∀ k, k < s.params.capacity → (s.entry k).key ≠ f.canId) : (s.allocate f).Inv := by
  obtain ⟨k, hk, ha⟩ := hs.camAlloc_isSome hc
  have heq := State.allocate_eq ha f
  have hcap := hs.paramsWf
  have hhead := hs.headLt
  have hpl : s.ringPos s.count.toNat < s.params.capacity := s.ringPos_lt hcap.1 _
  have hpos : (BitVec.ofNat 8 (s.ringPos s.count.toNat)).toNat = s.ringPos s.count.toNat :=
    toNat_ofNat_of_lt (by omega)
  have hfid : f.canId ≠ idEmpty := by
    have := hf.2.2.1
    intro h
    rw [h] at this
    exact absurd this (by decide)
  have hslot : ∀ p, (s.allocate f).slot p = if p = s.ringPos s.count.toNat then f else s.slot p := by
    intro p
    rw [heq]
    exact State.slot_setSlot s _ _ p (by rw [hs.slotsLength]; exact hpl)
  have hentry : ∀ m, (s.allocate f).entry m =
      if m = k then { key := f.canId, pos := BitVec.ofNat 8 (s.ringPos s.count.toNat) } else s.entry m := by
    intro m
    rw [heq]
    exact State.entry_setEntry s _ _ m (by rw [hs.indexLength]; exact hk)
  have hkey : ∀ m, m ≠ k → (s.allocate f).entry m = s.entry m := fun m h => by rw [hentry, if_neg h]
  have hkk : (s.allocate f).entry k =
      { key := f.canId, pos := BitVec.ofNat 8 (s.ringPos s.count.toNat) } := by rw [hentry, if_pos rfl]
  have hpar : (s.allocate f).params = s.params := by rw [heq]
  have hring : ∀ j, (s.allocate f).ringPos j = s.ringPos j := by intro j; rw [heq]; rfl
  have hcnt : (s.allocate f).count.toNat = s.count.toNat + 1 := by
    rw [heq]; exact count_toNat_succ (by omega)
  have hfree : (s.slot (s.ringPos s.count.toNat)).isSent ≠ false := by
    intro h
    obtain ⟨j, hj, he⟩ := (hs.liveIff _ hpl).1 h
    have := s.ringPos_inj hc (by omega) he
    omega
  refine
    { paramsWf := by rw [hpar]; exact hcap
      slotsLength := by rw [heq]; simpa using hs.slotsLength
      indexLength := by rw [heq]; simpa using hs.indexLength
      headLt := by rw [hpar, heq]; exact hhead
      countLe := by rw [hcnt, hpar]; omega
      liveIff := ?_, keysDistinct := ?_, entryLive := ?_, liveEntry := ?_, entryCount := ?_
      liveStorable := ?_
      statusLegal := by rw [heq]; exact hs.statusLegal }
  · intro p hp
    rw [hpar] at hp
    rw [hslot]
    constructor
    · split
      · rename_i h
        exact fun _ => ⟨s.count.toNat, by omega, by rw [hring]; exact h⟩
      · intro h
        obtain ⟨j, hj, he⟩ := (hs.liveIff p hp).1 h
        exact ⟨j, by omega, by rw [hring]; exact he⟩
    · rintro ⟨j, hj, rfl⟩
      rw [hring]
      split
      · exact hl
      · rename_i h
        refine hs.ringLive (Nat.lt_of_le_of_ne (by omega) ?_)
        rintro rfl
        exact h rfl
  · intro a ha b hb hne hab
    rw [hpar] at ha hb
    by_cases hak : a = k <;> by_cases hbk : b = k
    · rw [hak, hbk]
    · rw [hak, hkk, hkey b hbk] at hab
      exact absurd hab.symm (hnew b hb)
    · rw [hbk, hkk, hkey a hak] at hab
      exact absurd hab (hnew a ha)
    · rw [hkey a hak] at hne hab
      rw [hkey b hbk] at hab
      exact hs.keysDistinct a ha b hb hne hab
  · intro m hm hne
    rw [hpar] at hm ⊢
    by_cases hmk : m = k
    · rw [hmk, hkk]
      simp only [hpos]
      rw [hslot, if_pos rfl]
      exact ⟨hpl, hl, rfl⟩
    · rw [hkey m hmk] at hne ⊢
      obtain ⟨h1, h2, h3⟩ := hs.entryLive m hm hne
      have : (s.entry m).pos.toNat ≠ s.ringPos s.count.toNat := by
        intro h
        rw [h] at h2
        exact hfree h2
      rw [hslot, if_neg this]
      exact ⟨h1, h2, h3⟩
  · intro p hp hlp
    rw [hpar] at hp
    rw [hslot] at hlp
    by_cases hpp : p = s.ringPos s.count.toNat
    · exact ⟨k, by rw [hpar]; exact hk, by rw [hkk]; exact hfid, by rw [hkk, hpp]; exact hpos⟩
    · rw [if_neg hpp] at hlp
      obtain ⟨m, hm, hmne, hmp⟩ := hs.liveEntry p hp hlp
      have hmk : m ≠ k := by
        rintro rfl
        exact hmne (State.camAlloc_some ha).2.1
      exact ⟨m, by rw [hpar]; exact hm, by rw [hkey m hmk]; exact hmne, by rw [hkey m hmk]; exact hmp⟩
  · have hk' : k < s.index.length := by rw [hs.indexLength]; exact hk
    have h := countP_keys_set hk' { key := f.canId, pos := BitVec.ofNat 8 (s.ringPos s.count.toNat) }
    rw [← State.entry_eq_getElem s k hk', if_pos (State.camAlloc_some ha).2.1, hs.entryCount, if_neg hfid] at h
    rw [hcnt, heq]
    exact h
  · intro p hp hlp
    rw [hpar] at hp ⊢
    rw [hslot] at hlp ⊢
    by_cases hpp : p = s.ringPos s.count.toNat
    · rw [if_pos hpp]; exact hf
    · rw [if_neg hpp] at hlp ⊢
      exact hs.liveStorable p hp hlp

/-- The update in place keeps the invariants (R27, R132): a live slot, and a storable frame with the same
identifier. -/
theorem State.setSlot_inv {s : State} (hs : s.Inv) {p : Nat} (hp : p < s.params.capacity)
    (hlive : (s.slot p).isSent = false) {f : Frame} (hf : Storable s.params.rev f) (hl : f.isSent = false)
    (hid : f.canId = (s.slot p).canId) : (s.setSlot p f).Inv := by
  have hslot : ∀ q, (s.setSlot p f).slot q = if q = p then f else s.slot q :=
    fun q => State.slot_setSlot s p f q (by rw [hs.slotsLength]; exact hp)
  have hsent : ∀ q, ((s.setSlot p f).slot q).isSent = false ↔ (s.slot q).isSent = false := by
    intro q
    rw [hslot]
    split
    · rename_i h; rw [h]; simp [hl, hlive]
    · rfl
  have hcan : ∀ q, ((s.setSlot p f).slot q).canId = (s.slot q).canId := by
    intro q
    rw [hslot]
    split
    · rename_i h; rw [h, hid]
    · rfl
  refine
    { paramsWf := hs.paramsWf
      slotsLength := by simpa using hs.slotsLength
      indexLength := hs.indexLength
      headLt := hs.headLt
      countLe := hs.countLe
      liveIff := fun q hq => (hsent q).trans (hs.liveIff q hq)
      keysDistinct := hs.keysDistinct
      entryLive := ?_
      liveEntry := fun q hq h => hs.liveEntry q hq ((hsent q).1 h)
      entryCount := hs.entryCount
      liveStorable := ?_
      statusLegal := hs.statusLegal }
  · intro k hk hne
    obtain ⟨h1, h2, h3⟩ := hs.entryLive k hk hne
    exact ⟨h1, (hsent _).2 h2, (hcan _).trans h3⟩
  · intro q hq h
    rw [hslot]
    split
    · exact hf
    · exact hs.liveStorable q hq ((hsent q).1 h)

end Sys2Proof.Machine
end

