-- ==== Sys2Proof/Laws/Insert.lean ====
section
/-!
SUPPORT. What insert, take-next and lookup do as a whole: that they keep the invariants, and what they do to
the list of unread frames.
-/

namespace Sys2Proof.Machine

/-- The invariants speak of the block's own state alone (R27). -/
theorem State.Inv.of_block {s t : State} (hs : s.Inv) (hp : t.params = s.params) (h1 : t.slots = s.slots)
    (h2 : t.index = s.index) (h3 : t.head = s.head) (h4 : t.count = s.count)
    (h5 : t.sendStatus = sendOk ∨ (t.sendStatus = respRejected ∧ t.params.rev = .rev2)) : t.Inv := by
  have hslot : ∀ p, t.slot p = s.slot p := fun p => by unfold State.slot; rw [h1]
  have hentry : ∀ k, t.entry k = s.entry k := fun k => by unfold State.entry; rw [h2]
  have hring : ∀ j, t.ringPos j = s.ringPos j := fun j => by unfold State.ringPos; rw [h3, hp]
  have hpos : ∀ p, t.LivePos p ↔ s.LivePos p := fun p => by
    unfold State.LivePos
    simp only [h4, hring]
  exact
    { paramsWf := by rw [hp]; exact hs.paramsWf
      slotsLength := by rw [h1, hp]; exact hs.slotsLength
      indexLength := by rw [h2, hp]; exact hs.indexLength
      headLt := by rw [h3, hp]; exact hs.headLt
      countLe := by rw [h4, hp]; exact hs.countLe
      liveIff := fun p h => by rw [hslot, hpos]; exact hs.liveIff p (hp ▸ h)
      keysDistinct := fun a ha b hb h => by rw [hentry, hentry] at *; exact hs.keysDistinct a (hp ▸ ha) b (hp ▸ hb) h
      entryLive := fun k hk h => by
        rw [hentry] at h
        rw [hentry, hslot, hp]
        exact hs.entryLive k (hp ▸ hk) h
      liveEntry := fun p h hl => by
        rw [hslot] at hl
        obtain ⟨k, hk, h1, h2⟩ := hs.liveEntry p (hp ▸ h) hl
        exact ⟨k, by rw [hp]; exact hk, by rw [hentry]; exact h1, by rw [hentry]; exact h2⟩
      entryCount := by rw [h2, h4]; exact hs.entryCount
      liveStorable := fun p h hl => by
        rw [hslot] at hl ⊢
        rw [hp]
        exact hs.liveStorable p (hp ▸ h) hl
      statusLegal := h5 }

/-! ## The frame that insert forms -/

theorem clearBeyond_get (dl : Byte) (d : DataBytes) (i : Fin 8) :
    (clearBeyond dl d)[i] = if i.val < dl.toNat then d[i] else 0 := by
  simp [clearBeyond]

theorem clearBeyond_canonical (dl : Byte) (d : DataBytes) : Canonical dl (clearBeyond dl d) := by
  intro i hi
  rw [clearBeyond_get, if_neg (by omega)]

theorem clearBeyond_of_canonical {dl : Byte} {d : DataBytes} (h : Canonical dl d) : clearBeyond dl d = d := by
  apply Vector.ext
  intro i hi
  have h1 := clearBeyond_get dl d ⟨i, hi⟩
  have h2 := h ⟨i, hi⟩
  simp only [Fin.getElem_fin] at h1 h2
  rw [h1]
  split
  · rfl
  · rename_i hlt
    exact (h2 (by omega)).symm

/-- The frame that insert stores is the one R131 forms. -/
theorem frameOf_formed (rev : FormatRev) (r : RxOperands) : FormedFrom rev r (frameOf rev r) := by
  refine ⟨rfl, rfl, clearBeyond_get _ _, rfl, rfl, ?_, ?_⟩
  · rintro rfl; exact ⟨rfl, rfl⟩
  · rintro rfl; exact ⟨rfl, rfl⟩

theorem frameOf_storable {rev : FormatRev} {r : RxOperands} (h : ValidRx r) : Storable rev (frameOf rev r) := by
  obtain ⟨h1, h2, h3, h4⟩ := h
  refine ⟨clearBeyond_canonical _ _, h4, h1, h2, h3, ?_⟩
  rintro rfl
  exact ⟨rfl, rfl⟩

theorem validId_iff (id : Word) :
    validId id = true ↔ id.toNat ≤ 0x1FFFFFFF ∧ id ≠ 0x01010101#32 ∧ id ≠ 0x01010102#32 := by
  simp [validId, maxId, respRejected, respNotReady, and_assoc]

theorem validLength_iff (dl : Byte) : validLength dl = true ↔ dl.toNat ≤ 8 :=
  decide_eq_true_iff

theorem State.insert_valid (s : State) {r : RxOperands} (h : ValidRx r) :
    s.insert r = s.insertFrame (frameOf s.params.rev r) := by
  obtain ⟨h1, h2, h3, h4⟩ := h
  unfold State.insert
  rw [if_pos ((validId_iff _).2 ⟨h1, h2, h3⟩), if_pos ((validLength_iff _).2 h4)]

/-! ## Insert, case by case -/

/-- What insert can do with a frame that passed the validation step (R132 to R135). -/
theorem State.insertFrame_cases {s : State} (hs : s.Inv) {f : Frame} (hf : Storable s.params.rev f) :
    (∃ k, s.camFind f.canId = some k ∧ (s.entry k).pos.toNat < s.params.capacity ∧
      (s.slot (s.entry k).pos.toNat).isSent = false ∧ (s.slot (s.entry k).pos.toNat).canId = f.canId ∧
      s.insertFrame f = (s.setSlot (s.entry k).pos.toNat f, .updated)) ∨
    ((∀ k, k < s.params.capacity → (s.entry k).key ≠ f.canId) ∧
      (s.count.toNat < s.params.capacity ∧ s.insertFrame f = (s.allocate f, .stored) ∨
       s.count.toNat = s.params.capacity ∧ s.params.policy = .reject ∧
         s.insertFrame f = (s, .bufferFull) ∨
       s.count.toNat = s.params.capacity ∧ s.params.policy = .evictOldest ∧
         s.insertFrame f = (s.removeHead.allocate f, .storedEvicted))) := by
  have hfid : f.canId ≠ idEmpty := by
    have := hf.2.2.1
    intro h
    rw [h] at this
    exact absurd this (by decide)
  cases hc : s.camFind f.canId with
  | some k =>
    left
    obtain ⟨_, h1, h2, h3, _⟩ := hs.camFind_hit hc
    exact ⟨k, rfl, h1, h2, h3, by simp only [State.insertFrame, hc]⟩
  | none =>
    right
    refine ⟨fun k hk => State.camFind_none hc hfid k (by rw [hs.indexLength]; exact hk), ?_⟩
    by_cases hlt : s.count.toNat < s.params.capacity
    · exact .inl ⟨hlt, by simp only [State.insertFrame, hc, if_pos hlt]⟩
    · have hfull : s.count.toNat = s.params.capacity := by have := hs.countLe; omega
      cases hp : s.params.policy with
      | reject => exact .inr (.inl ⟨hfull, rfl, by simp only [State.insertFrame, hc, if_neg hlt, hp]⟩)
      | evictOldest => exact .inr (.inr ⟨hfull, rfl, by simp only [State.insertFrame, hc, if_neg hlt, hp]⟩)

theorem State.Inv.countPos_of_full {s : State} (hs : s.Inv) (h : s.count.toNat = s.params.capacity) :
    s.count ≠ 0 := count_pos_iff.2 (by have := hs.paramsWf.1; omega)

/-- After `remove_head` an identifier that no entry maps is still mapped by none. -/
theorem State.removeHead_key {s : State} (hs : s.Inv) (hc : s.count ≠ 0) {id : Word} (hid : id ≠ idEmpty)
    (hnew : ∀ k, k < s.params.capacity → (s.entry k).key ≠ id) (k : Nat) (hk : k < s.params.capacity) :
    (s.removeHead.entry k).key ≠ id := by
  obtain ⟨m, hm, _, _, _, heq⟩ := State.removeHead_eq hs hc
  have : s.removeHead.entry k = if k = m then markEmpty (s.entry m) else s.entry k := by
    rw [heq]
    exact State.entry_setEntry s m _ k (by rw [hs.indexLength]; exact hm)
  rw [this]
  split
  · exact Ne.symm hid
  · exact hnew k hk

theorem State.removeHead_params {s : State} (hs : s.Inv) (hc : s.count ≠ 0) :
    s.removeHead.params = s.params := by
  obtain ⟨_, _, _, _, _, heq⟩ := State.removeHead_eq hs hc
  rw [heq]

theorem State.removeHead_count {s : State} (hs : s.Inv) (hc : s.count ≠ 0) :
    s.removeHead.count.toNat + 1 = s.count.toNat := by
  obtain ⟨_, _, _, _, _, heq⟩ := State.removeHead_eq hs hc
  have := count_pos_iff.1 hc
  rw [heq]
  show (s.count - 1).toNat + 1 = _
  rw [count_toNat_pred hc]
  omega

/-- Insert keeps the invariants (R27). -/
theorem State.insertFrame_inv {s : State} (hs : s.Inv) {f : Frame} (hf : Storable s.params.rev f)
    (hl : f.isSent = false) : (s.insertFrame f).1.Inv := by
  have hfid : f.canId ≠ idEmpty := by
    have := hf.2.2.1
    intro h
    rw [h] at this
    exact absurd this (by decide)
  rcases State.insertFrame_cases hs hf with
    ⟨k, _, h1, h2, h3, he⟩ | ⟨hnew, ⟨hlt, he⟩ | ⟨_, _, he⟩ | ⟨hfull, _, he⟩⟩ <;> rw [he]
  · exact State.setSlot_inv hs h1 h2 hf hl h3.symm
  · exact State.allocate_inv hs hlt hf hl hnew
  · exact hs
  · have hc := hs.countPos_of_full hfull
    have hpar := State.removeHead_params hs hc
    refine State.allocate_inv (State.removeHead_inv hs hc) ?_ (by rw [hpar]; exact hf) hl ?_
    · have := State.removeHead_count hs hc
      rw [hpar]
      omega
    · rw [hpar]
      exact State.removeHead_key hs hc hfid hnew

theorem State.insert_inv {s : State} (hs : s.Inv) (r : RxOperands) : (s.insert r).1.Inv := by
  unfold State.insert
  split
  · split
    · rename_i h1 h2
      rw [validId_iff] at h1
      rw [validLength_iff] at h2
      exact State.insertFrame_inv hs (frameOf_storable ⟨h1.1, h1.2.1, h1.2.2, h2⟩) rfl
    · exact hs
  · exact hs

/-- Take-next keeps the invariants (R27). -/
theorem State.takeNext_inv {s : State} (hs : s.Inv) : s.takeNext.1.Inv := by
  unfold State.takeNext
  split
  · exact hs
  · rename_i hc
    exact State.removeHead_inv hs hc

/-- R136, from an empty buffer. -/
theorem State.takeNext_empty {s : State} (h : s.count = 0) : s.takeNext = (s, .error .notReady) := if_pos h

/-- R136, with a frame unread. -/
theorem State.takeNext_taken {s : State} (h : s.count ≠ 0) :
    s.takeNext = (s.removeHead, .ok (s.slot s.head.toNat)) := if_neg h

/-! ## What insert and take-next leave alone -/

theorem State.removeHead_ports (s : State) :
    s.removeHead.params = s.params ∧ s.removeHead.sendStatus = s.sendStatus ∧
    s.removeHead.hostIn = s.hostIn ∧ s.removeHead.rxIn = s.rxIn ∧ s.removeHead.lookupIn = s.lookupIn ∧
    s.removeHead.resetIn = s.resetIn ∧ s.removeHead.schedule = s.schedule ∧
    s.removeHead.arbTick = s.arbTick ∧ s.removeHead.hostOut = s.hostOut ∧ s.removeHead.txOut = s.txOut ∧
    s.removeHead.rxOut = s.rxOut ∧ s.removeHead.lookupOut = s.lookupOut := by
  unfold State.removeHead State.freeHeadEntry
  cases s.camFind (s.slot s.head.toNat).canId <;> simp

theorem State.allocate_ports (s : State) (f : Frame) :
    (s.allocate f).params = s.params ∧ (s.allocate f).sendStatus = s.sendStatus ∧
    (s.allocate f).hostIn = s.hostIn ∧ (s.allocate f).rxIn = s.rxIn ∧ (s.allocate f).lookupIn = s.lookupIn ∧
    (s.allocate f).resetIn = s.resetIn ∧ (s.allocate f).schedule = s.schedule ∧
    (s.allocate f).arbTick = s.arbTick ∧ (s.allocate f).hostOut = s.hostOut ∧
    (s.allocate f).txOut = s.txOut ∧ (s.allocate f).rxOut = s.rxOut ∧
    (s.allocate f).lookupOut = s.lookupOut := by
  unfold State.allocate State.takeEntry
  cases s.camAlloc <;> simp

theorem State.insert_ports (s : State) (r : RxOperands) :
    (s.insert r).1.params = s.params ∧ (s.insert r).1.sendStatus = s.sendStatus ∧
    (s.insert r).1.hostIn = s.hostIn ∧ (s.insert r).1.rxIn = s.rxIn ∧ (s.insert r).1.lookupIn = s.lookupIn ∧
    (s.insert r).1.resetIn = s.resetIn ∧ (s.insert r).1.schedule = s.schedule ∧
    (s.insert r).1.arbTick = s.arbTick ∧ (s.insert r).1.hostOut = s.hostOut ∧
    (s.insert r).1.txOut = s.txOut ∧ (s.insert r).1.rxOut = s.rxOut ∧
    (s.insert r).1.lookupOut = s.lookupOut := by
  unfold State.insert State.insertFrame
  have h1 := s.removeHead_ports
  split
  · split
    · split
      · simp
      · split
        · exact s.allocate_ports _
        · split
          · simp
          · have h2 := s.removeHead.allocate_ports (frameOf s.params.rev r)
            simp_all
    · simp
  · simp

theorem State.takeNext_ports (s : State) :
    s.takeNext.1.params = s.params ∧ s.takeNext.1.sendStatus = s.sendStatus ∧
    s.takeNext.1.hostIn = s.hostIn ∧ s.takeNext.1.rxIn = s.rxIn ∧ s.takeNext.1.lookupIn = s.lookupIn ∧
    s.takeNext.1.resetIn = s.resetIn ∧ s.takeNext.1.schedule = s.schedule ∧
    s.takeNext.1.arbTick = s.arbTick ∧ s.takeNext.1.hostOut = s.hostOut ∧ s.takeNext.1.txOut = s.txOut ∧
    s.takeNext.1.rxOut = s.rxOut ∧ s.takeNext.1.lookupOut = s.lookupOut := by
  unfold State.takeNext
  split
  · simp
  · exact s.removeHead_ports

/-! ## The list of unread frames -/

theorem State.unread_length (s : State) : s.unread.length = s.count.toNat := by simp [State.unread]

theorem State.unread_getElem? (s : State) (j : Nat) :
    s.unread[j]? = if j < s.count.toNat then some (s.slot (s.ringPos j)) else none := by
  unfold State.unread
  split
  · rename_i h; simp [h]
  · rename_i h; simp; omega

theorem State.unread_eq_nil_iff (s : State) : s.unread = [] ↔ s.count = 0 := by
  rw [← List.length_eq_zero_iff, s.unread_length]
  constructor
  · intro h; exact BitVec.eq_of_toNat_eq (by simpa using h)
  · intro h; simp [h]

/-- The unread frames are the frames of the live slots. -/
theorem State.mem_unread_iff {s : State} (hs : s.Inv) (f : Frame) :
    f ∈ s.unread ↔ ∃ p, p < s.params.capacity ∧ (s.slot p).isSent = false ∧ s.slot p = f := by
  unfold State.unread
  simp only [List.mem_map, List.mem_range]
  constructor
  · rintro ⟨j, hj, rfl⟩
    exact ⟨s.ringPos j, s.ringPos_lt hs.paramsWf.1 j, hs.ringLive hj, rfl⟩
  · rintro ⟨p, hp, hl, rfl⟩
    obtain ⟨j, hj, rfl⟩ := (hs.liveIff p hp).1 hl
    exact ⟨j, hj, rfl⟩

/-- A CAM search hits exactly when an unread frame has the identifier. -/
theorem State.unread_any_iff {s : State} (hs : s.Inv) (id : Word) :
    s.unread.any (fun g => g.canId == id) = (s.camFind id).isSome := by
  rw [Bool.eq_iff_iff, List.any_eq_true, Option.isSome_iff_exists]
  constructor
  · rintro ⟨g, hg, hid⟩
    obtain ⟨p, hp, hl, rfl⟩ := (State.mem_unread_iff hs g).1 hg
    obtain ⟨k, _, hk, _⟩ := hs.camFind_live hp hl
    rw [beq_iff_eq] at hid
    exact ⟨k, by rw [← hid]; exact hk⟩
  · rintro ⟨k, hk⟩
    obtain ⟨_, h1, h2, h3, _⟩ := hs.camFind_hit hk
    exact ⟨_, (State.mem_unread_iff hs _).2 ⟨_, h1, h2, rfl⟩, by rw [beq_iff_eq]; exact h3⟩

theorem State.removeHead_unread {s : State} (hs : s.Inv) (hc : s.count ≠ 0) :
    s.removeHead.unread = s.unread.tail := by
  obtain ⟨k, _, _, _, _, heq⟩ := State.removeHead_eq hs hc
  have hcap := hs.paramsWf
  have hcnt := State.removeHead_count hs hc
  have hring : ∀ j, s.removeHead.ringPos j = s.ringPos (j + 1) := by
    intro j
    have : s.removeHead.head.toNat = s.ringPos 1 := by
      rw [heq]
      exact toNat_ofNat_of_lt (by have := s.ringPos_lt hcap.1 1; omega)
    unfold State.ringPos at this ⊢
    rw [State.removeHead_params hs hc, this, Nat.mod_add_mod]
    congr 1
    omega
  apply List.ext_getElem?
  intro j
  rw [List.getElem?_tail, State.unread_getElem?, State.unread_getElem?, hring]
  by_cases h : j < s.removeHead.count.toNat
  · rw [if_pos h, if_pos (by omega)]
    have hne : s.ringPos (j + 1) ≠ s.head.toNat := by
      rw [← s.ringPos_zero hs.headLt]
      intro he
      have := s.ringPos_inj (by have := hs.countLe; omega) (by omega) he
      omega
    have : s.removeHead.slot (s.ringPos (j + 1)) = s.slot (s.ringPos (j + 1)) := by
      rw [heq]
      exact (State.slot_setSlot s _ _ _ (by rw [hs.slotsLength]; exact hs.headLt)).trans (if_neg hne)
    rw [this]
  · rw [if_neg h, if_neg (by omega)]

theorem State.unread_head {s : State} (hs : s.Inv) (hc : s.count ≠ 0) :
    s.unread = s.slot s.head.toNat :: s.removeHead.unread := by
  rw [State.removeHead_unread hs hc]
  have h0 := s.unread_getElem? 0
  rw [if_pos (count_pos_iff.1 hc), s.ringPos_zero hs.headLt] at h0
  cases hu : s.unread with
  | nil => rw [hu] at h0; simp at h0
  | cons a l => rw [hu] at h0; simpa using h0

theorem State.allocate_unread {s : State} (hs : s.Inv) (hc : s.count.toNat < s.params.capacity) (f : Frame) :
    (s.allocate f).unread = s.unread ++ [f] := by
  obtain ⟨k, _, ha⟩ := hs.camAlloc_isSome hc
  have heq := State.allocate_eq ha f
  have hcap := hs.paramsWf
  have hcnt : (s.allocate f).count.toNat = s.count.toNat + 1 := by
    rw [heq]; exact count_toNat_succ (by omega)
  have hring : ∀ j, (s.allocate f).ringPos j = s.ringPos j := by intro j; rw [heq]; rfl
  have hslot : ∀ p, (s.allocate f).slot p = if p = s.ringPos s.count.toNat then f else s.slot p := by
    intro p
    rw [heq]
    exact State.slot_setSlot s _ _ p (by rw [hs.slotsLength]; exact s.ringPos_lt hcap.1 _)
  apply List.ext_getElem?
  intro j
  rw [State.unread_getElem?, hring, hslot, hcnt]
  rcases Nat.lt_trichotomy j s.count.toNat with h | h | h
  · rw [List.getElem?_append_left (by rw [s.unread_length]; exact h), State.unread_getElem?, if_pos h,
      if_pos (by omega), if_neg]
    intro he
    have := s.ringPos_inj (by omega) hc he
    omega
  · subst h
    rw [if_pos (by omega), if_pos rfl, ← s.unread_length, List.getElem?_concat_length]
  · rw [if_neg (by omega), List.getElem?_eq_none]
    rw [List.length_append, s.unread_length, List.length_singleton]
    omega

theorem State.setSlot_unread {s : State} (hs : s.Inv) {p : Nat} (hp : p < s.params.capacity)
    (hl : (s.slot p).isSent = false) {f : Frame} (hid : f.canId = (s.slot p).canId) :
    (s.setSlot p f).unread = s.unread.map (fun g => if g.canId = f.canId then f else g) := by
  unfold State.unread
  rw [List.map_map]
  apply List.map_congr_left
  intro j hj
  have hj' : j < s.count.toNat := List.mem_range.1 hj
  simp only [Function.comp_apply, State.setSlot_ringPos]
  rw [State.slot_setSlot s p f _ (by rw [hs.slotsLength]; exact hp)]
  by_cases h : s.ringPos j = p
  · rw [if_pos h, if_pos (by rw [h, hid])]
  · rw [if_neg h, if_neg]
    intro he
    exact h (hs.idsDistinct (s.ringPos_lt hs.paramsWf.1 j) hp (hs.ringLive hj') hl (he.trans hid))

/-- Insert, seen on the list of unread frames (R31, R132 to R135). -/
theorem State.insertFrame_unread {s : State} (hs : s.Inv) {f : Frame} (hf : Storable s.params.rev f) :
    ((s.insertFrame f).1.unread, (s.insertFrame f).2) = fifoInsert s.params s.unread f := by
  have hfid : f.canId ≠ idEmpty := by
    have := hf.2.2.1
    intro h
    rw [h] at this
    exact absurd this (by decide)
  unfold fifoInsert
  rw [State.unread_any_iff hs, s.unread_length]
  rcases State.insertFrame_cases hs hf with
    ⟨k, hk, h1, h2, h3, he⟩ | ⟨hnew, h⟩
  · rw [he, hk, if_pos (by rfl), State.setSlot_unread hs h1 h2 h3.symm]
  · have hnone : s.camFind f.canId = none :=
      State.camFind_eq_none fun k hk => hnew k (by rw [← hs.indexLength]; exact hk)
    rw [hnone, if_neg (by simp)]
    rcases h with ⟨hlt, he⟩ | ⟨hfull, hp, he⟩ | ⟨hfull, hp, he⟩
    · rw [he, if_pos hlt, State.allocate_unread hs hlt]
    · rw [he, if_neg (by omega), hp]
    · have hc := hs.countPos_of_full hfull
      rw [he, if_neg (by omega), hp]
      have hlt : s.removeHead.count.toNat < s.removeHead.params.capacity := by
        have := State.removeHead_count hs hc
        rw [State.removeHead_params hs hc]
        omega
      rw [State.allocate_unread (State.removeHead_inv hs hc) hlt, State.removeHead_unread hs hc]

/-- RX_FRAME, seen on the list of unread frames. -/
theorem State.insert_unread {s : State} (hs : s.Inv) (r : RxOperands) :
    ((s.insert r).1.unread, (s.insert r).2) = fifoRx s.params s.unread r := by
  unfold fifoRx
  split
  · rename_i h
    have : validId r.canId = false := by
      rw [Bool.eq_false_iff]
      intro h'
      obtain ⟨h1, h2, h3⟩ := (validId_iff _).1 h'
      rcases h with h | h | h
      · omega
      · exact h2 h
      · exact h3 h
    simp [State.insert, this]
  · rename_i h
    have hid : validId r.canId = true :=
      (validId_iff _).2 ⟨by by_contra h'; exact h (.inl (by omega)), fun h' => h (.inr (.inl h')),
        fun h' => h (.inr (.inr h'))⟩
    split
    · rename_i h8
      have : validLength r.dataLength = false := by
        rw [Bool.eq_false_iff]
        intro h'
        have := (validLength_iff _).1 h'
        omega
      simp [State.insert, hid, this]
    · rename_i h8
      have hl : validLength r.dataLength = true := (validLength_iff _).2 (by omega)
      have hv : ValidRx r := ⟨((validId_iff _).1 hid).1, ((validId_iff _).1 hid).2.1,
        ((validId_iff _).1 hid).2.2, by omega⟩
      rw [State.insert_valid s hv]
      exact State.insertFrame_unread hs (frameOf_storable hv)

/-- LOOKUP, seen on the list of unread frames (R137). -/
theorem State.lookupFrame_unread {s : State} (hs : s.Inv) (id : Word) :
    s.lookupFrame id = s.unread.find? (fun f => f.canId == id) := by
  unfold State.lookupFrame
  have hany := State.unread_any_iff hs id
  cases hk : s.camFind id with
  | none =>
    rw [hk] at hany
    symm
    rw [List.find?_eq_none]
    intro g hg hid
    have : s.unread.any (fun g => g.canId == id) = true := List.any_eq_true.2 ⟨g, hg, hid⟩
    rw [hany] at this
    exact absurd this (by simp)
  | some k =>
    rw [hk] at hany
    obtain ⟨_, h1, h2, h3, _⟩ := hs.camFind_hit hk
    have hs' : (s.unread.find? (fun f => f.canId == id)).isSome = true := by
      rw [List.find?_isSome]
      exact List.any_eq_true.1 hany
    obtain ⟨g, hg⟩ := Option.isSome_iff_exists.1 hs'
    obtain ⟨q, hq, hlq, rfl⟩ := (State.mem_unread_iff hs g).1 (List.mem_of_find?_eq_some hg)
    have hgid : (s.slot q).canId = id := by simpa using List.find?_some hg
    have hpq := hs.idsDistinct h1 hq h2 hlq (h3.trans hgid.symm)
    rw [hg, ← hpq]

end Sys2Proof.Machine
end

