-- ==== Sys2Proof/Laws/Codec.lean ====
section
/-!
SUPPORT. What the codec functions do: the checksum one byte at a time and its injectivity, the byte forms of
words and data, the length of frame bytes, and the cut or filled answer of a read.
-/

namespace Sys2Proof.Machine

/-! ## The checksum -/

@[simp] theorem crc8_nil : crc8 [] = 0 := rfl

theorem crc8_concat (s : List Byte) (b : Byte) : crc8 (s ++ [b]) = crcByte (crc8 s) b := by
  simp [crc8, List.foldl_append]

theorem crc8_append (s t : List Byte) : crc8 (s ++ t) = t.foldl crcByte (crc8 s) := by
  simp [crc8, List.foldl_append]

/-- The shift undone: what was subtracted shows in bit 0. -/
def crcUnshift (c : Byte) : Byte := if c.getLsbD 0 then ((c ^^^ 0x07) >>> 1) ||| 0x80 else c >>> 1

set_option maxRecDepth 8000 in
theorem crcUnshift_crcShift : ∀ c : Byte, crcUnshift (crcShift c) = c := by decide

theorem crcShift_inj {a b : Byte} (h : crcShift a = crcShift b) : a = b := by
  rw [← crcUnshift_crcShift a, h, crcUnshift_crcShift]

theorem crcByte_inj {a b x y : Byte} (h : crcByte a x = crcByte b y) : a ^^^ x = b ^^^ y := by
  unfold crcByte at h
  exact crcShift_inj (crcShift_inj (crcShift_inj (crcShift_inj (crcShift_inj (crcShift_inj (crcShift_inj
    (crcShift_inj h)))))))

/-- After the same bytes, different checksums stay different. -/
theorem crc_foldl_inj (t : List Byte) {a b : Byte} (h : t.foldl crcByte a = t.foldl crcByte b) : a = b := by
  induction t generalizing a b with
  | nil => exact h
  | cons x t ih =>
    have := crcByte_inj (ih h)
    have h2 := congrArg (· ^^^ x) this
    simpa [BitVec.xor_assoc] using h2

/-- A change of exactly one byte changes the checksum. -/
theorem crc8_set_ne {s : List Byte} {i : Nat} (hi : i < s.length) {x : Byte} (hx : s[i] ≠ x) :
    crc8 (s.set i x) ≠ crc8 s := by
  intro h
  have h1 : s.set i x = s.take i ++ [x] ++ s.drop (i + 1) := by simp [List.set_eq_take_append_cons_drop, hi]
  have h2 : s = s.take i ++ [s[i]] ++ s.drop (i + 1) := by simp
  rw [h1] at h
  conv at h => rhs; rw [h2]
  rw [crc8_append, crc8_append (s.take i ++ [s[i]]), crc8_concat, crc8_concat] at h
  have h3 := crcByte_inj (crc_foldl_inj _ h)
  have h4 := congrArg (crc8 (s.take i) ^^^ ·) h3
  simp only [← BitVec.xor_assoc, BitVec.xor_self, BitVec.zero_xor] at h4
  exact hx h4.symm

/-! ## Words and data as bytes -/

@[simp] theorem wordBytes_length (x : Word) : (wordBytes x).length = 4 := rfl

theorem wordOfBytes_getElem (b0 b1 b2 b3 : Byte) (i : Nat) (hi : i < 32) :
    (wordOfBytes b0 b1 b2 b3)[i] =
      if i < 8 then b3.getLsbD i else if i < 16 then b2.getLsbD (i - 8)
      else if i < 24 then b1.getLsbD (i - 16) else b0.getLsbD (i - 24) := by
  unfold wordOfBytes
  simp only [BitVec.getElem_or, BitVec.getElem_shiftLeft, BitVec.getElem_setWidth]
  rcases (by omega : i < 8 ∨ (8 ≤ i ∧ i < 16) ∨ (16 ≤ i ∧ i < 24) ∨ (24 ≤ i ∧ i < 32)) with h | h | h | h
  · simp [h, show i < 16 by omega, show i < 24 by omega]
  · simp [h, show ¬ i < 8 by omega, show i < 24 by omega]
  · simp [h, show ¬ i < 8 by omega, show ¬ i < 16 by omega, show 8 ≤ i - 8 by omega,
      BitVec.getLsbD_of_ge b3 i (by omega)]
  · simp [ show ¬ i < 8 by omega, show ¬ i < 16 by omega, show ¬ i < 24 by omega, show 8 ≤ i - 8 by omega, show 8 ≤ i - 16 by omega,
      BitVec.getLsbD_of_ge b3 i (by omega)]

/-- Reading back the big-endian bytes of a word gives the word (R76). -/
theorem wordOfBytes_wordBytes (x : Word) :
    wordOfBytes (x.extractLsb' 24 8) (x.extractLsb' 16 8) (x.extractLsb' 8 8) (x.extractLsb' 0 8) = x := by
  ext i hi
  rw [wordOfBytes_getElem _ _ _ _ i hi]
  simp only [BitVec.getLsbD_extractLsb']
  rw [← BitVec.getLsbD_eq_getElem]
  split
  · simp [*]
  · split
    · simp [show i - 8 < 8 by omega, show 8 + (i - 8) = i by omega]
    · split
      · simp [show i - 16 < 8 by omega, show 16 + (i - 16) = i by omega]
      · simp [show i - 24 < 8 by omega, show 24 + (i - 24) = i by omega]

/-- Splitting an assembled word gives its bytes back (R76). -/
theorem wordBytes_wordOfBytes (b0 b1 b2 b3 : Byte) : wordBytes (wordOfBytes b0 b1 b2 b3) = [b0, b1, b2, b3] := by
  have h : ∀ (b : Byte) (k : Nat), k + 8 ≤ 32 →
      (∀ i (h : i < 8), (wordOfBytes b0 b1 b2 b3).getLsbD (k + i) = b.getLsbD i) →
      (wordOfBytes b0 b1 b2 b3).extractLsb' k 8 = b := by
    intro b k _ hb
    ext i hi
    rw [BitVec.getElem_extractLsb', hb i hi, BitVec.getLsbD_eq_getElem]
  unfold wordBytes
  rw [h b0 24 (by omega) ?_, h b1 16 (by omega) ?_, h b2 8 (by omega) ?_, h b3 0 (by omega) ?_]
  all_goals
    intro i hi
    rw [BitVec.getLsbD_eq_getElem (by omega), wordOfBytes_getElem]
  · simp [hi]
  · simp [show 8 + i < 16 by omega]
  · simp [show ¬ 16 + i < 16 by omega, show 16 + i < 24 by omega, show ¬ 16 + i < 8 by omega]
  · simp [show ¬ 24 + i < 16 by omega, show ¬ 24 + i < 24 by omega, show ¬ 24 + i < 8 by omega]

/-- The eight data bytes as a list. -/
theorem data_toList (v : DataBytes) : v.toList = [v[0], v[1], v[2], v[3], v[4], v[5], v[6], v[7]] := by
  apply List.ext_getElem (by simp)
  intro i h1 h2
  simp only [Vector.length_toList] at h1
  simp only [Vector.getElem_toList]
  interval_cases i <;> rfl

/-! ## The answer of a read -/

/-- R161: exactly `n` bytes. -/
@[simp] theorem fit_length (w : List Byte) (n : Nat) : (fit w n).length = n := by
  simp [fit]; omega

/-- R161: the register's bytes, and 0x00 beyond them. -/
theorem fit_getElem? (w : List Byte) {n i : Nat} (h : i < n) :
    (fit w n)[i]? = some (w.getD i 0) := by
  unfold fit
  by_cases hi : i < w.length
  · rw [List.getElem?_append_left (by simp; omega)]
    simp [h, hi]
  · have hg : w.getD i 0 = 0 := by simp [List.getElem?_eq_none (Nat.le_of_not_lt hi)]
    rw [List.getElem?_append_right (by rw [List.length_take]; omega), List.getElem?_replicate,
      if_pos (by rw [List.length_take]; omega), hg]

/-! ## The length of frame bytes -/

@[simp] theorem bodyR1_length (f : WireFrame) : (bodyR1 f).length = 15 := by simp [bodyR1, wireData]

@[simp] theorem bodyR2_length (f : WireFrame) : (bodyR2 f).length = 13 := by simp [bodyR2, wireData]

/-- Frame bytes are FRAME_BYTES long (R8). -/
theorem encodeFrame_length {rev : FormatRev} {f : WireFrame} {b : List Byte}
    (h : encodeFrame rev f = .ok b) : b.length = frameBytes rev := by
  cases rev <;> simp only [encodeFrame, encodeR1, encodeR2] at h <;> split at h <;> cases h <;>
    simp [frameBytes]

/-- Encode answers frame bytes exactly when dataLength is legal (R103, R104). -/
theorem encodeFrame_ok {rev : FormatRev} {f : WireFrame} (h : f.dataLength.toNat ≤ 8) :
    ∃ b, encodeFrame rev f = .ok b := by
  cases rev <;> simp only [encodeFrame, encodeR1, encodeR2, (validLength_iff _).2 h] <;> exact ⟨_, rfl⟩

theorem encodeFrame_error {rev : FormatRev} {f : WireFrame} (h : 8 < f.dataLength.toNat) :
    encodeFrame rev f = .error .invalidLength := by
  have : validLength f.dataLength = false := by
    rw [Bool.eq_false_iff]; intro h'; have := (validLength_iff _).1 h'; omega
  cases rev <;> simp [encodeFrame, encodeR1, encodeR2, this]

/-- The frame bytes start with the canId (R74, R75). -/
theorem encodeFrame_take {rev : FormatRev} {f : WireFrame} {b : List Byte}
    (h : encodeFrame rev f = .ok b) : b.take 4 = wordBytes f.canId := by
  cases rev <;> simp only [encodeFrame, encodeR1, encodeR2] at h <;> split at h <;> cases h <;>
    simp [bodyR1, bodyR2, wordBytes]

/-! ## The bytes that encode writes and decode reads -/

theorem byteAt_of_lt {s : List Byte} {i : Nat} (h : i < s.length) : byteAt s i = s[i] := by simp [byteAt, h]

theorem dataFrom_get (s : List Byte) (at0 : Nat) (dl : Byte) (i : Fin 8) :
    (dataFrom s at0 dl)[i] = if i.val < dl.toNat then byteAt s (at0 + i.val) else 0 := by
  simp [dataFrom]

/-- The revision 1 layout, byte by byte (R74). -/
theorem bodyR1_eq (f : WireFrame) :
    bodyR1 f =
      [f.canId.extractLsb' 24 8, f.canId.extractLsb' 16 8, f.canId.extractLsb' 8 8, f.canId.extractLsb' 0 8,
        flagByte f.isExtended, flagByte f.isRemoteRequest, f.dataLength,
        (clearBeyond f.dataLength f.data)[0], (clearBeyond f.dataLength f.data)[1],
        (clearBeyond f.dataLength f.data)[2], (clearBeyond f.dataLength f.data)[3],
        (clearBeyond f.dataLength f.data)[4], (clearBeyond f.dataLength f.data)[5],
        (clearBeyond f.dataLength f.data)[6], (clearBeyond f.dataLength f.data)[7]] := by
  simp [bodyR1, wordBytes, wireData, data_toList]

/-- The revision 2 layout, byte by byte (R75). -/
theorem bodyR2_eq (f : WireFrame) :
    bodyR2 f =
      [f.canId.extractLsb' 24 8, f.canId.extractLsb' 16 8, f.canId.extractLsb' 8 8, f.canId.extractLsb' 0 8,
        f.dataLength, (clearBeyond f.dataLength f.data)[0], (clearBeyond f.dataLength f.data)[1],
        (clearBeyond f.dataLength f.data)[2], (clearBeyond f.dataLength f.data)[3],
        (clearBeyond f.dataLength f.data)[4], (clearBeyond f.dataLength f.data)[5],
        (clearBeyond f.dataLength f.data)[6], (clearBeyond f.dataLength f.data)[7]] := by
  simp [bodyR2, wordBytes, wireData, data_toList]

/-- What DECODE_R1 accepts, and the frame it reads (R106). -/
theorem decodeR1_ok {s : List Byte} {f : WireFrame} (h : decodeR1 s = .ok f) :
    s.length = 16 ∧ crc8 (s.take 15) = byteAt s 15 ∧ (byteAt s 6).toNat ≤ 8 ∧
      f = { canId := canIdFrom s, isExtended := flagOfByte (byteAt s 4),
            isRemoteRequest := flagOfByte (byteAt s 5), dataLength := byteAt s 6,
            data := dataFrom s 7 (byteAt s 6) } := by
  unfold decodeR1 at h
  split at h
  · cases h
  · split at h
    · cases h
    · split at h
      · cases h
        exact ⟨by omega, by simp_all, (validLength_iff _).1 ‹_›, rfl⟩
      · cases h

/-- What DECODE_R2 accepts, and the frame it reads (R107). -/
theorem decodeR2_ok {s : List Byte} {f : WireFrame} (h : decodeR2 s = .ok f) :
    s.length = 14 ∧ crc8 (s.take 13) = byteAt s 13 ∧ (byteAt s 4).toNat ≤ 8 ∧
      f = { canId := canIdFrom s, isExtended := false, isRemoteRequest := false,
            dataLength := byteAt s 4, data := dataFrom s 5 (byteAt s 4) } := by
  unfold decodeR2 at h
  split at h
  · cases h
  · split at h
    · cases h
    · split at h
      · cases h
        exact ⟨by omega, by simp_all, (validLength_iff _).1 ‹_›, rfl⟩
      · cases h

end Sys2Proof.Machine
end

