-- ==== Sys2Proof/Laws/Decode.lean ====
section
/-!
SUPPORT. What the command word and its decoder do: the fields of a host word, the events that ports deliver,
and the rows of the two lowest priorities.
-/

namespace Sys2Proof

/-! ## The fields of a host word (R71) -/

set_option maxRecDepth 8000 in
theorem hostReadWord_fields :
    ∀ addr : Byte, wordPort (hostReadWord addr) = 0 ∧ wordDir (hostReadWord addr) = true ∧
      wordAddr (hostReadWord addr) = addr := by decide

set_option maxRecDepth 8000 in
theorem hostWriteWord_fields :
    ∀ addr : Byte, wordPort (hostWriteWord addr) = 0 ∧ wordDir (hostWriteWord addr) = false ∧
      wordAddr (hostWriteWord addr) = addr := by decide

/-- A host read decodes to the row of its address (R79). -/
theorem decode_hostRead (rev : FormatRev) (addr : Byte) (n : Nat) :
    decode rev (hostReadWord addr) (.hr n) = .ok (decodeHostRead rev addr n) := by
  obtain ⟨h1, h2, h3⟩ := hostReadWord_fields addr
  simp [decode, decodeHost, h1, h2, h3]

/-- A host write decodes to the row of its address (R79). -/
theorem decode_hostWrite (rev : FormatRev) (addr : Byte) (payload : List Byte) :
    decode rev (hostWriteWord addr) (.hw payload) = .ok (decodeHostWrite rev addr payload) := by
  obtain ⟨h1, h2, h3⟩ := hostWriteWord_fields addr
  simp [decode, decodeHost, h1, h2, h3]

theorem decode_rx (rev : FormatRev) (r : RxOperands) : decode rev rxWord (.rx r) = .ok (.rxFrame r) := by
  cases rev <;> rfl

theorem decode_lookup (rev : FormatRev) (canId : Word) :
    decode rev lookupWord (.lq canId) = .ok (.lookup canId) := by cases rev <;> rfl

/-- The addresses that no row names (R192, R193). -/
theorem named_iff (addr : Byte) :
    Machine.named addr = true ↔
      addr ∈ [0x01#8, 0x02, 0x03, 0x30, 0x40, 0x51, 0x60, 0x65, 0x70, 0x80, 0x90, 0xA0, 0xB0, 0xC0] := by
  simp [Machine.named, Machine.namedAddresses, Machine.regI2cAddress, Machine.regFramesCount,
    Machine.regCanBaudRate, Machine.regSendFrame, Machine.regReceiveFrame, Machine.regI2cAddressSet,
    Machine.regMask0, Machine.regMask1, Machine.regFilt0, Machine.regFilt1, Machine.regFilt2,
    Machine.regFilt3, Machine.regFilt4, Machine.regFilt5]

theorem decodeHostRead_unnamed (rev : FormatRev) {addr : Byte} (h : Machine.named addr = false) (n : Nat) :
    decodeHostRead rev addr n = .rdUnclaimed addr n := by
  simp only [Machine.named, Machine.namedAddresses, List.contains_cons, List.contains_nil, Bool.or_false,
    Bool.or_eq_false_iff, beq_eq_false_iff_ne] at h
  simp [decodeHostRead, h]

theorem decodeHostWrite_unnamed (rev : FormatRev) {addr : Byte} (h : Machine.named addr = false)
    (payload : List Byte) : decodeHostWrite rev addr payload = .wrUnclaimed addr payload := by
  simp only [Machine.named, Machine.namedAddresses, List.contains_cons, List.contains_nil, Bool.or_false,
    Bool.or_eq_false_iff, beq_eq_false_iff_ne] at h
  simp [decodeHostWrite, h]

end Sys2Proof
end

