-- ==== Sys2Proof/Laws/PerInstr.lean ====
section
/-!
SUPPORT. The statement made of every constructor of `Instr` (R79): an encoded command of an instance decodes to
itself.
-/

namespace Sys2Proof.Laws.RoundTrip

/-- An encoded command decodes to itself, in every revision that has it. -/
def Statement (i : Instr) : Prop :=
  ∀ rev : FormatRev, i.wf rev = true → decode rev (encode i).1 (encode i).2 = .ok i

theorem rdFramesCount (n : Nat) : Statement (.rdFramesCount n) := fun rev _ =>
  decode_hostRead rev 0x02 n

theorem wrFramesCount (payload : List Byte) : Statement (.wrFramesCount payload) := fun rev _ =>
  decode_hostWrite rev 0x02 payload

theorem wrSendFrame (payload : List Byte) : Statement (.wrSendFrame payload) := by
  intro rev h
  obtain rfl : rev = .rev2 := by simpa [Instr.wf] using h
  exact decode_hostWrite .rev2 0x30 payload

theorem rdSendStatus (n : Nat) : Statement (.rdSendStatus n) := by
  intro rev h
  obtain rfl : rev = .rev2 := by simpa [Instr.wf] using h
  exact decode_hostRead .rev2 0x30 n

theorem rdReceiveFrame (n : Nat) : Statement (.rdReceiveFrame n) := fun rev _ =>
  decode_hostRead rev 0x40 n

theorem wrReceiveFrame (payload : List Byte) : Statement (.wrReceiveFrame payload) := fun rev _ =>
  decode_hostWrite rev 0x40 payload

theorem rdI2cAddress (n : Nat) : Statement (.rdI2cAddress n) := fun rev _ =>
  decode_hostRead rev 0x01 n

theorem wrI2cAddress (payload : List Byte) : Statement (.wrI2cAddress payload) := fun rev _ =>
  decode_hostWrite rev 0x01 payload

theorem rdCanBaudRate (n : Nat) : Statement (.rdCanBaudRate n) := fun rev _ =>
  decode_hostRead rev 0x03 n

theorem wrCanBaudRate (payload : List Byte) : Statement (.wrCanBaudRate payload) := fun rev _ =>
  decode_hostWrite rev 0x03 payload

theorem rdI2cAddressSet (n : Nat) : Statement (.rdI2cAddressSet n) := fun rev _ =>
  decode_hostRead rev 0x51 n

theorem wrI2cAddressSet (payload : List Byte) : Statement (.wrI2cAddressSet payload) := fun rev _ =>
  decode_hostWrite rev 0x51 payload

theorem rdMask0 (n : Nat) : Statement (.rdMask0 n) := fun rev _ =>
  decode_hostRead rev 0x60 n

theorem wrMask0 (payload : List Byte) : Statement (.wrMask0 payload) := fun rev _ =>
  decode_hostWrite rev 0x60 payload

theorem rdMask1 (n : Nat) : Statement (.rdMask1 n) := fun rev _ =>
  decode_hostRead rev 0x65 n

theorem wrMask1 (payload : List Byte) : Statement (.wrMask1 payload) := fun rev _ =>
  decode_hostWrite rev 0x65 payload

theorem rdFilt0 (n : Nat) : Statement (.rdFilt0 n) := fun rev _ =>
  decode_hostRead rev 0x70 n

theorem wrFilt0 (payload : List Byte) : Statement (.wrFilt0 payload) := fun rev _ =>
  decode_hostWrite rev 0x70 payload

theorem rdFilt1 (n : Nat) : Statement (.rdFilt1 n) := fun rev _ =>
  decode_hostRead rev 0x80 n

theorem wrFilt1 (payload : List Byte) : Statement (.wrFilt1 payload) := fun rev _ =>
  decode_hostWrite rev 0x80 payload

theorem rdFilt2 (n : Nat) : Statement (.rdFilt2 n) := fun rev _ =>
  decode_hostRead rev 0x90 n

theorem wrFilt2 (payload : List Byte) : Statement (.wrFilt2 payload) := fun rev _ =>
  decode_hostWrite rev 0x90 payload

theorem rdFilt3 (n : Nat) : Statement (.rdFilt3 n) := fun rev _ =>
  decode_hostRead rev 0xA0 n

theorem wrFilt3 (payload : List Byte) : Statement (.wrFilt3 payload) := fun rev _ =>
  decode_hostWrite rev 0xA0 payload

theorem rdFilt4 (n : Nat) : Statement (.rdFilt4 n) := fun rev _ =>
  decode_hostRead rev 0xB0 n

theorem wrFilt4 (payload : List Byte) : Statement (.wrFilt4 payload) := fun rev _ =>
  decode_hostWrite rev 0xB0 payload

theorem rdFilt5 (n : Nat) : Statement (.rdFilt5 n) := fun rev _ =>
  decode_hostRead rev 0xC0 n

theorem wrFilt5 (payload : List Byte) : Statement (.wrFilt5 payload) := fun rev _ =>
  decode_hostWrite rev 0xC0 payload

theorem rdUnclaimed30 (n : Nat) : Statement (.rdUnclaimed30 n) := by
  intro rev h
  obtain rfl : rev = .rev1 := by simpa [Instr.wf] using h
  exact decode_hostRead .rev1 0x30 n

theorem wrUnclaimed30 (payload : List Byte) : Statement (.wrUnclaimed30 payload) := by
  intro rev h
  obtain rfl : rev = .rev1 := by simpa [Instr.wf] using h
  exact decode_hostWrite .rev1 0x30 payload

theorem rdUnclaimed (addr : Byte) (n : Nat) : Statement (.rdUnclaimed addr n) := by
  intro rev h
  have hn : Machine.named addr = false := by simpa [Instr.wf] using h
  exact (decode_hostRead rev addr n).trans (congrArg _ (decodeHostRead_unnamed rev hn n))

theorem wrUnclaimed (addr : Byte) (payload : List Byte) : Statement (.wrUnclaimed addr payload) := by
  intro rev h
  have hn : Machine.named addr = false := by simpa [Instr.wf] using h
  exact (decode_hostWrite rev addr payload).trans (congrArg _ (decodeHostWrite_unnamed rev hn payload))

theorem rxFrame (r : RxOperands) : Statement (.rxFrame r) := fun rev _ => decode_rx rev r

theorem lookup (canId : Word) : Statement (.lookup canId) := fun rev _ => decode_lookup rev canId

end Sys2Proof.Laws.RoundTrip
end

