-- ==== Sys2Proof/Laws/Exec.lean ====
section
/-!
SUPPORT. Once for all commands: what `exec` can do, that a command of the instance completes, what its next
state keeps, and what the choice of the next event can do.
-/

namespace Sys2Proof.Machine

/-! ## Commands -/

/-- The commands that only answer the host port: every one but WR_SEND_FRAME, RD_RECEIVE_FRAME, RX_FRAME and
LOOKUP. -/
def answersHostOnly : Instr → Bool
  | .wrSendFrame _ | .rdReceiveFrame _ | .rxFrame _ | .lookup _ => false
  | _ => true

/-- What a command can do when it answers a next state. -/
theorem exec_next_cases {i : Instr} {s t : State} (h : exec i s = .next t) :
    (answersHostOnly i = true ∧ ∃ a, t = s.answerHost a) ∨
    (∃ payload, i = .wrSendFrame payload ∧ s.params.rev = .rev2 ∧ t = (s.sendFrame payload).acceptWrite) ∨
    (∃ n, i = .rdReceiveFrame n ∧
      t = s.takeNext.1.respond (receiveResponse s.params.rev s.takeNext.2) n) ∨
    (∃ r, i = .rxFrame r ∧ t = (s.insert r).1.driveRx (s.insert r).2) ∨
    (∃ canId, i = .lookup canId ∧ t = s.answerLookup (s.lookupFrame canId)) := by
  cases i with
  | wrSendFrame payload =>
    unfold exec execWrSendFrame at h
    cases hr : s.params.rev with
    | rev1 => rw [hr] at h; cases h
    | rev2 => rw [hr] at h; cases h; exact .inr (.inl ⟨payload, rfl, rfl, rfl⟩)
  | rdReceiveFrame n => cases h; exact .inr (.inr (.inl ⟨n, rfl, rfl⟩))
  | rxFrame r => cases h; exact .inr (.inr (.inr (.inl ⟨r, rfl, rfl⟩)))
  | lookup canId => cases h; exact .inr (.inr (.inr (.inr ⟨canId, rfl, rfl⟩)))
  | rdSendStatus n =>
    unfold exec execRdSendStatus at h
    cases hr : s.params.rev <;> rw [hr] at h <;> cases h
    exact .inl ⟨rfl, _, rfl⟩
  | rdUnclaimed30 n =>
    unfold exec execRdUnclaimed30 at h
    cases hr : s.params.rev <;> rw [hr] at h <;> cases h
    exact .inl ⟨rfl, _, rfl⟩
  | wrUnclaimed30 payload =>
    unfold exec execWrUnclaimed30 at h
    cases hr : s.params.rev <;> rw [hr] at h <;> cases h
    exact .inl ⟨rfl, _, rfl⟩
  | rdUnclaimed addr n =>
    simp only [exec, execRdUnclaimed] at h
    split at h <;> cases h
    exact .inl ⟨rfl, _, rfl⟩
  | wrUnclaimed addr payload =>
    simp only [exec, execWrUnclaimed] at h
    split at h <;> cases h
    exact .inl ⟨rfl, _, rfl⟩
  | _ => cases h; exact .inl ⟨rfl, _, rfl⟩

/-- A command of the instance completes (R220, R222). -/
theorem exec_completes {i : Instr} {s : State} (h : i.wf s.params.rev = true) : ∃ t, exec i s = .next t := by
  cases i with
  | wrSendFrame payload =>
    have hr : s.params.rev = .rev2 := by simpa [Instr.wf] using h
    simp [exec, execWrSendFrame, hr]
  | rdSendStatus n =>
    have hr : s.params.rev = .rev2 := by simpa [Instr.wf] using h
    simp [exec, execRdSendStatus, hr]
  | rdUnclaimed30 n =>
    have hr : s.params.rev = .rev1 := by simpa [Instr.wf] using h
    simp [exec, execRdUnclaimed30, hr]
  | wrUnclaimed30 payload =>
    have hr : s.params.rev = .rev1 := by simpa [Instr.wf] using h
    simp [exec, execWrUnclaimed30, hr]
  | rdUnclaimed addr n =>
    have hn : named addr = false := by simpa [Instr.wf] using h
    simp [exec, execRdUnclaimed, hn]
  | wrUnclaimed addr payload =>
    have hn : named addr = false := by simpa [Instr.wf] using h
    simp [exec, execWrUnclaimed, hn]
  | _ => exact ⟨_, rfl⟩

@[simp] theorem State.sendFrame_params (s : State) (payload : List Byte) :
    (s.sendFrame payload).params = s.params := by
  unfold State.sendFrame; cases decodeR2 payload <;> rfl

/-- A send writes SEND_STATUS and, when it is accepted, the transmit port (R164). -/
theorem State.sendFrame_cases (s : State) (payload : List Byte) :
    (∃ f, decodeR2 payload = .ok f ∧ s.sendFrame payload = (s.setSendStatus sendOk).emitTx f) ∨
    (∃ k, decodeR2 payload = .error k ∧ s.sendFrame payload = s.setSendStatus respRejected) := by
  unfold State.sendFrame
  cases h : decodeR2 payload with
  | ok f => exact .inl ⟨f, rfl, rfl⟩
  | error k => exact .inr ⟨k, rfl, rfl⟩

/-- No command changes the parameters (R251). -/
theorem exec_params {i : Instr} {s t : State} (h : exec i s = .next t) : t.params = s.params := by
  rcases exec_next_cases h with ⟨_, a, rfl⟩ | ⟨p, _, _, rfl⟩ | ⟨n, _, rfl⟩ | ⟨r, _, rfl⟩ | ⟨c, _, rfl⟩
  · rfl
  · exact s.sendFrame_params p
  · exact s.takeNext_ports.1
  · exact (s.insert_ports r).1
  · rfl

/-- Every command keeps the invariants (R27). -/
theorem exec_inv {i : Instr} {s t : State} (hs : s.Inv) (h : exec i s = .next t) : t.Inv := by
  rcases exec_next_cases h with ⟨_, a, rfl⟩ | ⟨p, _, hr, rfl⟩ | ⟨n, _, rfl⟩ | ⟨r, _, rfl⟩ | ⟨c, _, rfl⟩
  · exact hs.of_block rfl rfl rfl rfl rfl hs.statusLegal
  · rcases s.sendFrame_cases p with ⟨f, _, he⟩ | ⟨k, _, he⟩ <;> rw [he]
    · exact hs.of_block rfl rfl rfl rfl rfl (.inl rfl)
    · exact hs.of_block rfl rfl rfl rfl rfl (.inr ⟨rfl, hr⟩)
  · exact (State.takeNext_inv hs).of_block rfl rfl rfl rfl rfl (State.takeNext_inv hs).statusLegal
  · exact (State.insert_inv hs r).of_block rfl rfl rfl rfl rfl (State.insert_inv hs r).statusLegal
  · exact hs.of_block rfl rfl rfl rfl rfl hs.statusLegal

theorem resetWith_inv {p : Params} (hp : p.Wf) : (State.resetWith p).Inv := by
  have hslot : ∀ q, (State.resetWith p).slot q = Frame.free := by
    intro q; simp [State.slot, State.resetWith, List.getElem?_replicate]; split <;> rfl
  have hentry : ∀ k, (State.resetWith p).entry k = IndexEntry.empty := by
    intro k; simp [State.entry, State.resetWith, List.getElem?_replicate]; split <;> rfl
  have hfree : Frame.free.isSent ≠ false := by decide
  refine
    { paramsWf := hp
      slotsLength := by simp [State.resetWith]
      indexLength := by simp [State.resetWith]
      headLt := Nat.lt_of_lt_of_le Nat.zero_lt_one hp.1
      countLe := by simp [State.resetWith]
      liveIff := fun q _ => ?_
      keysDistinct := fun k _ k' _ h => absurd (by rw [hentry]; rfl) h
      entryLive := fun k _ h => absurd (by rw [hentry]; rfl) h
      liveEntry := fun q _ h => absurd (by rw [hslot] at h; exact h) hfree
      entryCount := ?_
      liveStorable := fun q _ h => absurd (by rw [hslot] at h; exact h) hfree
      statusLegal := .inl rfl }
  · rw [hslot]
    constructor
    · exact fun h => absurd h hfree
    · rintro ⟨j, hj, _⟩
      exact absurd hj (Nat.not_lt_zero j)
  · have : ∀ n, (List.replicate n IndexEntry.empty).countP (fun e => e.key != idEmpty) = 0 := by
      intro n
      rw [List.countP_eq_zero]
      intro e he
      rw [List.eq_of_mem_replicate he]
      decide
    exact this _

/-- Reset puts the block into the invariants, from any state of an instance (R250). -/
theorem resetBlock_inv {s : State} (hp : s.params.Wf) : s.resetBlock.Inv :=
  (resetWith_inv hp).of_block rfl rfl rfl rfl rfl (.inl rfl)

/-! ## Events -/

/-- The row of a host event's address is a command of the instance (R79, R80). -/
theorem decodeHostRead_wf (rev : FormatRev) (addr : Byte) (n : Nat) :
    (decodeHostRead rev addr n).wf rev = true := by
  by_cases h : named addr = true
  · rw [named_iff] at h
    simp only [List.mem_cons, List.not_mem_nil, or_false] at h
    rcases h with rfl | rfl | rfl | rfl | rfl | rfl | rfl | rfl | rfl | rfl | rfl | rfl | rfl | rfl <;>
      cases rev <;> rfl
  · have h' : named addr = false := by simpa using h
    rw [decodeHostRead_unnamed rev h']
    simp [Instr.wf, h']

theorem decodeHostWrite_wf (rev : FormatRev) (addr : Byte) (payload : List Byte) :
    (decodeHostWrite rev addr payload).wf rev = true := by
  by_cases h : named addr = true
  · rw [named_iff] at h
    simp only [List.mem_cons, List.not_mem_nil, or_false] at h
    rcases h with rfl | rfl | rfl | rfl | rfl | rfl | rfl | rfl | rfl | rfl | rfl | rfl | rfl | rfl <;>
      cases rev <;> rfl
  · have h' : named addr = false := by simpa using h
    rw [decodeHostWrite_unnamed rev h']
    simp [Instr.wf, h']

/-- An event that a port delivers is a Reset(), or decodes to a command of the instance (R79, R80). -/
theorem event_decodes (rev : FormatRev) (e : Event) :
    e = .reset ∨ ∃ w ops i, eventCommand e = some (w, ops) ∧ decode rev w ops = .ok i ∧ i.wf rev = true := by
  cases e with
  | host e =>
    right
    cases e with
    | read addr n => exact ⟨_, _, _, rfl, decode_hostRead rev addr n, decodeHostRead_wf rev addr n⟩
    | write addr payload =>
      exact ⟨_, _, _, rfl, decode_hostWrite rev addr payload, decodeHostWrite_wf rev addr payload⟩
  | rx r => exact .inr ⟨_, _, _, rfl, decode_rx rev r, rfl⟩
  | lookup canId => exact .inr ⟨_, _, _, rfl, decode_lookup rev canId, rfl⟩
  | reset => exact .inl rfl

/-- What an event applied can do: the reset of the block, or one command of the instance. -/
theorem applyEvent_cases (e : Event) (s : State) :
    (e = .reset ∧ applyEvent e s = .next s.resetBlock) ∨
    ∃ i, e ≠ .reset ∧ i.wf s.params.rev = true ∧ applyEvent e s = exec i s := by
  rcases event_decodes s.params.rev e with rfl | ⟨w, ops, i, h1, h2, h3⟩
  · exact .inl ⟨rfl, rfl⟩
  · refine .inr ⟨i, ?_, h3, ?_⟩
    · rintro rfl; cases h1
    · simp only [applyEvent, h1, runCommand, h2]

theorem applyEvent_completes (e : Event) (s : State) : ∃ t, applyEvent e s = .next t := by
  rcases applyEvent_cases e s with ⟨_, h⟩ | ⟨i, _, hwf, h⟩
  · exact ⟨_, h⟩
  · rw [h]; exact exec_completes hwf

theorem applyEvent_params {e : Event} {s t : State} (h : applyEvent e s = .next t) : t.params = s.params := by
  rcases applyEvent_cases e s with ⟨_, he⟩ | ⟨i, _, _, he⟩ <;> rw [he] at h
  · cases h; rfl
  · exact exec_params h

theorem applyEvent_inv {e : Event} {s t : State} (hs : s.Inv) (h : applyEvent e s = .next t) : t.Inv := by
  rcases applyEvent_cases e s with ⟨_, he⟩ | ⟨i, _, _, he⟩ <;> rw [he] at h
  · cases h; exact resetBlock_inv hs.paramsWf
  · exact exec_inv hs h

/-! ## The choice of the next event -/

theorem State.mem_readyPorts (s : State) (p : Port) : p ∈ s.readyPorts ↔ s.portReady p = true := by
  unfold State.readyPorts
  rw [List.mem_filter]
  exact ⟨fun h => h.2, fun h => ⟨by cases p <;> simp, h⟩⟩

theorem State.arbitrate_mem (s : State) {ready : List Port} {p : Port} (hp : p ∈ ready) :
    s.arbitrate ready p ∈ ready := by
  have hd : ∀ n, ready.getD (n % ready.length) p ∈ ready := by
    intro n
    have : n % ready.length < ready.length := Nat.mod_lt _ (List.length_pos_of_mem hp)
    rw [List.getD_eq_getElem _ _ this]
    exact List.getElem_mem this
  unfold State.arbitrate
  split
  · split
    · rename_i h; simpa using h
    · exact hd _
  · exact hd _

theorem State.nextPort_ready {s : State} {p : Port} (h : s.nextPort = some p) : s.portReady p = true := by
  rw [← State.mem_readyPorts]
  unfold State.nextPort at h
  split at h
  · cases h
  · rename_i q hq; cases h; rw [hq]; simp
  · rename_i a b rest hq
    cases h
    rw [hq]
    exact s.arbitrate_mem (by simp)

theorem State.nextPort_none {s : State} (h : s.nextPort = none) (p : Port) : s.portReady p = false := by
  unfold State.nextPort at h
  split at h
  · rename_i hq
    rw [Bool.eq_false_iff]
    intro hr
    rw [← State.mem_readyPorts, hq] at hr
    cases hr
  · cases h
  · cases h

/-- What taking the oldest event of a port does: that port loses it, and nothing else changes but the
arbitration's turn. -/
theorem State.takeEvent_cases {s u : State} {p : Port} {e : Event} (h : s.takeEvent p = some (e, u)) :
    (∃ x rest, e = .host x ∧ s.hostIn = x :: rest ∧ u = { s.nextTurn with hostIn := rest }) ∨
    (∃ x rest, e = .rx x ∧ s.rxIn = x :: rest ∧ u = { s.nextTurn with rxIn := rest }) ∨
    (∃ x rest, e = .lookup x ∧ s.lookupIn = x :: rest ∧ u = { s.nextTurn with lookupIn := rest }) ∨
    (∃ k, e = .reset ∧ s.resetIn = k + 1 ∧ u = { s.nextTurn with resetIn := k }) := by
  cases p <;> simp only [State.takeEvent] at h <;> split at h <;> cases h
  · exact .inl ⟨_, _, rfl, ‹_›, rfl⟩
  · exact .inr (.inl ⟨_, _, rfl, ‹_›, rfl⟩)
  · exact .inr (.inr (.inl ⟨_, _, rfl, ‹_›, rfl⟩))
  · exact .inr (.inr (.inr ⟨_, rfl, ‹_›, rfl⟩))

theorem State.takeEvent_ready {s : State} {p : Port} (h : s.portReady p = true) :
    ∃ e u, s.takeEvent p = some (e, u) := by
  cases p <;> simp only [State.portReady] at h <;> simp only [State.takeEvent]
  · cases hq : s.hostIn <;> simp_all
  · cases hq : s.rxIn <;> simp_all
  · cases hq : s.lookupIn <;> simp_all
  · cases hq : s.resetIn <;> simp_all

theorem State.fetch_cases {s u : State} {e : Event} (h : s.fetch = some (e, u)) :
    (∃ x rest, e = .host x ∧ s.hostIn = x :: rest ∧ u = { s.nextTurn with hostIn := rest }) ∨
    (∃ x rest, e = .rx x ∧ s.rxIn = x :: rest ∧ u = { s.nextTurn with rxIn := rest }) ∨
    (∃ x rest, e = .lookup x ∧ s.lookupIn = x :: rest ∧ u = { s.nextTurn with lookupIn := rest }) ∨
    (∃ k, e = .reset ∧ s.resetIn = k + 1 ∧ u = { s.nextTurn with resetIn := k }) := by
  unfold State.fetch at h
  split at h
  · cases h
  · exact State.takeEvent_cases h

/-- There is a next event exactly when some port has one. -/
theorem State.fetch_none_iff (s : State) : s.fetch = none ↔ s.pendingCount = 0 := by
  constructor
  · intro h
    unfold State.fetch at h
    split at h
    · rename_i hn
      have h1 := State.nextPort_none hn .host
      have h2 := State.nextPort_none hn .receive
      have h3 := State.nextPort_none hn .lookup
      have h4 := State.nextPort_none hn .reset
      simp only [State.portReady, Bool.not_eq_false', List.isEmpty_iff, bne_eq_false_iff_eq] at h1 h2 h3 h4
      simp [State.pendingCount, h1, h2, h3, h4]
    · rename_i p hn
      obtain ⟨e, u, he⟩ := State.takeEvent_ready (State.nextPort_ready hn)
      rw [h] at he
      cases he
  · intro h
    cases hf : s.fetch with
    | none => rfl
    | some eu =>
      obtain ⟨e, u⟩ := eu
      unfold State.pendingCount at h
      rcases State.fetch_cases hf with ⟨x, r, _, hq, _⟩ | ⟨x, r, _, hq, _⟩ | ⟨x, r, _, hq, _⟩ | ⟨k, _, hq, _⟩ <;>
        rw [hq] at h <;> simp at h

/-- Taking the next event keeps the invariants: they do not speak of the pending events. -/
theorem State.fetch_inv {s u : State} {e : Event} (hs : s.Inv) (h : s.fetch = some (e, u)) : u.Inv := by
  rcases State.fetch_cases h with ⟨x, r, _, _, rfl⟩ | ⟨x, r, _, _, rfl⟩ | ⟨x, r, _, _, rfl⟩ | ⟨k, _, _, rfl⟩ <;>
    exact hs.of_block rfl rfl rfl rfl rfl hs.statusLegal

theorem State.fetch_params {s u : State} {e : Event} (h : s.fetch = some (e, u)) : u.params = s.params := by
  rcases State.fetch_cases h with ⟨x, r, _, _, rfl⟩ | ⟨x, r, _, _, rfl⟩ | ⟨x, r, _, _, rfl⟩ | ⟨k, _, _, rfl⟩ <;>
    rfl

/-- What one step can do: nothing, with no event pending; otherwise the next event is applied. -/
theorem step_cases (s : State) :
    (s.fetch = none ∧ step s = .next s) ∨
    ∃ e u, s.fetch = some (e, u) ∧ step s = applyEvent e u := by
  unfold step
  cases s.fetch with
  | none => exact .inl ⟨rfl, rfl⟩
  | some eu => exact .inr ⟨eu.1, eu.2, rfl, rfl⟩

/-- Where the arbitration order names a port with an event pending, that port is served (R32). -/
theorem State.nextPort_scheduled {s : State} {p : Port} {ports : List Port} (hr : s.portReady p = true)
    (hs : s.schedule = p :: ports) : s.nextPort = some p := by
  have hm := (s.mem_readyPorts p).2 hr
  unfold State.nextPort
  split
  · rename_i h; rw [h] at hm; cases hm
  · rename_i q h; rw [h, List.mem_singleton] at hm; rw [hm]
  · rename_i a b rest h
    rw [h] at hm
    simp only [State.arbitrate, hs]
    rw [if_pos (by simpa using hm)]

/-! ## Runs of several commands -/

theorem execAll_append {is js : List Instr} {s t : State} (h : execAll is s = .next t) :
    execAll (is ++ js) s = execAll js t := by
  induction is generalizing s with
  | nil => cases h; rfl
  | cons i is ih =>
    simp only [execAll, List.cons_append] at h ⊢
    cases hi : exec i s with
    | next u => rw [hi] at h; exact ih h
    | fault r => rw [hi] at h; cases h
    | refused r => rw [hi] at h; cases h

/-- A run of commands keeps the invariants and the parameters. -/
theorem execAll_inv {is : List Instr} {s t : State} (hs : s.Inv) (h : execAll is s = .next t) :
    t.Inv ∧ t.params = s.params := by
  induction is generalizing s with
  | nil => cases h; exact ⟨hs, rfl⟩
  | cons i is ih =>
    simp only [execAll] at h
    cases hi : exec i s with
    | next u =>
      rw [hi] at h
      have := ih (exec_inv hs hi) h
      exact ⟨this.1, this.2.trans (exec_params hi)⟩
    | fault r => rw [hi] at h; cases h
    | refused r => rw [hi] at h; cases h

/-- A run of commands of the instance completes. -/
theorem execAll_completes {is : List Instr} {s : State} (h : ∀ i ∈ is, i.wf s.params.rev = true) :
    ∃ t, execAll is s = .next t := by
  induction is generalizing s with
  | nil => exact ⟨s, rfl⟩
  | cons i is ih =>
    obtain ⟨u, hu⟩ := exec_completes (h i (by simp))
    obtain ⟨t, ht⟩ := ih (s := u) (fun j hj => by rw [exec_params hu]; exact h j (by simp [hj]))
    exact ⟨t, by simp [execAll, hu, ht]⟩

end Sys2Proof.Machine
end

