-- ==== Sys2Proof/Laws/Pending.lean ====
section
/-!
SUPPORT. The operations and the commands read and write nothing of what is pending: each gives the same result
on the state without its pending events.
-/

namespace Sys2Proof.Machine

theorem State.removeHead_withoutPending (s : State) :
    s.withoutPending.removeHead = s.removeHead.withoutPending := by
  have h : s.withoutPending.freeHeadEntry = s.freeHeadEntry.withoutPending := by
    show (match s.camFind (s.slot s.head.toNat).canId with | some k => _ | none => _) =
      State.withoutPending (match s.camFind (s.slot s.head.toNat).canId with | some k => _ | none => _)
    cases s.camFind (s.slot s.head.toNat).canId <;> rfl
  unfold State.removeHead
  rw [h]
  rfl

theorem State.allocate_withoutPending (s : State) (f : Frame) :
    s.withoutPending.allocate f = (s.allocate f).withoutPending := by
  have h : ∀ e, s.withoutPending.takeEntry e = (s.takeEntry e).withoutPending := by
    intro e
    show (match s.camAlloc with | some k => _ | none => _) =
      State.withoutPending (match s.camAlloc with | some k => _ | none => _)
    cases s.camAlloc <;> rfl
  unfold State.allocate
  simp only [h]
  rfl

theorem State.insertFrame_withoutPending (s : State) (f : Frame) :
    s.withoutPending.insertFrame f = ((s.insertFrame f).1.withoutPending, (s.insertFrame f).2) := by
  unfold State.insertFrame
  rw [show s.withoutPending.camFind f.canId = s.camFind f.canId from rfl,
    show s.withoutPending.count = s.count from rfl, show s.withoutPending.params = s.params from rfl]
  split
  · rfl
  · split
    · rw [State.allocate_withoutPending]
    · split
      · rfl
      · rw [State.removeHead_withoutPending, State.allocate_withoutPending]

theorem State.insert_withoutPending (s : State) (r : RxOperands) :
    s.withoutPending.insert r = ((s.insert r).1.withoutPending, (s.insert r).2) := by
  unfold State.insert
  split
  · split
    · exact s.insertFrame_withoutPending _
    · rfl
  · rfl

theorem State.takeNext_withoutPending (s : State) :
    s.withoutPending.takeNext = (s.takeNext.1.withoutPending, s.takeNext.2) := by
  unfold State.takeNext
  rw [show s.withoutPending.count = s.count from rfl, State.removeHead_withoutPending]
  split <;> rfl

theorem exec_withoutPending {i : Instr} {s t : State} (h : exec i s = .next t) :
    exec i s.withoutPending = .next t.withoutPending := by
  have hp : s.withoutPending.params = s.params := rfl
  cases i with
  | wrSendFrame payload =>
    simp only [exec, execWrSendFrame, State.sendFrame, hp] at h ⊢
    cases hr : s.params.rev <;> rw [hr] at h <;> cases h
    simp only
    cases decodeR2 payload <;> rfl
  | rdReceiveFrame n =>
    cases h
    simp only [exec, execRdReceiveFrame, State.takeNext_withoutPending]
    rfl
  | rxFrame r =>
    cases h
    simp only [exec, execRxFrame, State.insert_withoutPending]
    rfl
  | rdSendStatus n =>
    simp only [exec, execRdSendStatus, hp] at h ⊢
    cases hr : s.params.rev <;> rw [hr] at h <;> cases h
    rfl
  | rdUnclaimed30 n =>
    simp only [exec, execRdUnclaimed30, hp] at h ⊢
    cases hr : s.params.rev <;> rw [hr] at h <;> cases h
    rfl
  | wrUnclaimed30 payload =>
    simp only [exec, execWrUnclaimed30, hp] at h ⊢
    cases hr : s.params.rev <;> rw [hr] at h <;> cases h
    rfl
  | rdUnclaimed addr n =>
    simp only [exec, execRdUnclaimed] at h ⊢
    split at h <;> cases h
    rw [if_neg ‹_›]
    rfl
  | wrUnclaimed addr payload =>
    simp only [exec, execWrUnclaimed] at h ⊢
    split at h <;> cases h
    rw [if_neg ‹_›]
    rfl
  | _ => cases h; rfl

end Sys2Proof.Machine
end

