-- ==== Sys2Proof/Laws/Fair.lean ====
section
/-!
SUPPORT. What a move of a run does to the events pending at each port, and that a choice of moves is a run.
-/

namespace Sys2Proof.Machine

/-! ## The events pending at a port, as a list -/

/-- The events pending at a port, oldest first. -/
def State.queue (s : State) : Port → List Event
  | .host => s.hostIn.map .host
  | .receive => s.rxIn.map .rx
  | .lookup => s.lookupIn.map .lookup
  | .reset => List.replicate s.resetIn .reset

@[simp] theorem State.queue_length (s : State) (port : Port) : (s.queue port).length = s.pendingAt port := by
  cases port <;> simp [State.queue, State.pendingAt]

theorem State.portReady_iff (s : State) (port : Port) : s.portReady port = true ↔ 0 < s.pendingAt port := by
  cases port <;> simp [State.portReady, State.pendingAt, Nat.pos_iff_ne_zero]

/-- A delivery waits behind what its port delivered before, and changes no other port's queue. -/
theorem State.deliver_queue (s : State) (e : Event) (port : Port) :
    (s.deliver e).queue port = if port = eventPort e then s.queue port ++ [e] else s.queue port := by
  cases e <;> cases port <;> simp [State.deliver, State.queue, eventPort, List.replicate_succ']

/-- A command consumes no pending event. -/
theorem exec_queue {i : Instr} {s t : State} (h : exec i s = .next t) (port : Port) : t.queue port = s.queue port := by
  have hq : ∀ {a b : State}, a.hostIn = b.hostIn → a.rxIn = b.rxIn → a.lookupIn = b.lookupIn →
      a.resetIn = b.resetIn → a.queue port = b.queue port := by
    intro a b h1 h2 h3 h4
    cases port <;> simp [State.queue, h1, h2, h3, h4]
  rcases exec_next_cases h with ⟨_, a, rfl⟩ | ⟨p, _, _, rfl⟩ | ⟨n, _, rfl⟩ | ⟨r, _, rfl⟩ | ⟨c, _, rfl⟩
  · exact hq rfl rfl rfl rfl
  · rcases s.sendFrame_cases p with ⟨f, _, he⟩ | ⟨k, _, he⟩ <;> rw [he] <;> exact hq rfl rfl rfl rfl
  · obtain ⟨_, _, h1, h2, h3, h4, _⟩ := s.takeNext_ports
    exact hq h1 h2 h3 h4
  · obtain ⟨_, _, h1, h2, h3, h4, _⟩ := s.insert_ports r
    exact hq h1 h2 h3 h4
  · exact hq rfl rfl rfl rfl

theorem applyEvent_queue {e : Event} {s t : State} (h : applyEvent e s = .next t) (port : Port) :
    t.queue port = s.queue port := by
  rcases applyEvent_cases e s with ⟨_, he⟩ | ⟨i, _, _, he⟩ <;> rw [he] at h
  · cases h; cases port <;> rfl
  · exact exec_queue h port

/-- The port served gives its oldest event, and no other port loses one. -/
theorem State.takeEvent_queue {s u : State} {e : Event} {p : Port} (h : s.takeEvent p = some (e, u)) (port : Port) :
    s.queue port = if port = p then e :: u.queue port else u.queue port := by
  cases p <;> simp only [State.takeEvent] at h <;> split at h <;> cases h <;>
    cases port <;> simp [State.queue, State.nextTurn, List.replicate_succ, *]

/-- What a step does to the queues: with no event pending nothing; otherwise one port's oldest event is applied
and leaves its queue. -/
theorem step_queue {s t : State} (h : step s = .next t) :
    (s.nextPort = none ∧ t = s) ∨
    ∃ p e u, s.nextPort = some p ∧ s.fetch = some (e, u) ∧ applyEvent e u = .next t ∧
      ∀ port, s.queue port = if port = p then e :: t.queue port else t.queue port := by
  cases hp : s.nextPort with
  | none =>
    have hf : s.fetch = none := by unfold State.fetch; rw [hp]
    unfold step at h
    rw [hf] at h
    cases h
    exact .inl ⟨rfl, rfl⟩
  | some p =>
    obtain ⟨e, u, ht⟩ := State.takeEvent_ready (State.nextPort_ready hp)
    have hf : s.fetch = some (e, u) := by unfold State.fetch; rw [hp]; exact ht
    unfold step at h
    rw [hf] at h
    refine .inr ⟨p, e, u, rfl, hf, h, fun port => ?_⟩
    rw [State.takeEvent_queue ht port, applyEvent_queue h port]

/-! ## Moves and runs -/

theorem applyMove_completes (m : Move) (s : State) : ∃ t, applyMove m s = .next t := by
  cases m with
  | deliver e => exact ⟨_, rfl⟩
  | order ports => exact ⟨_, rfl⟩
  | step =>
    rcases step_cases s with ⟨_, h⟩ | ⟨e, u, _, h⟩
    · exact ⟨_, h⟩
    · obtain ⟨t, ht⟩ := applyEvent_completes e u
      exact ⟨t, h.trans ht⟩

/-- The states of the run that makes these moves. -/
def statesOf (p : Params) (moves : Nat → Move) : Nat → State
  | 0 => State.resetWith p
  | n + 1 =>
    match applyMove (moves n) (statesOf p moves n) with
    | .next t => t
    | _ => statesOf p moves n

/-- Every choice of moves is a run. -/
theorem statesOf_isRun (p : Params) (moves : Nat → Move) : IsRun p moves (statesOf p moves) := by
  refine ⟨rfl, fun n => ?_⟩
  obtain ⟨t, ht⟩ := applyMove_completes (moves n) (statesOf p moves n)
  simp only [statesOf, ht]

theorem IsRun.after_deliver {p : Params} {moves : Nat → Move} {states : Nat → State} (h : IsRun p moves states)
    {n : Nat} {e : Event} (hm : moves n = .deliver e) : states (n + 1) = (states n).deliver e := by
  have hn := h.next n
  rw [hm] at hn
  exact (Host.Outcome.next.inj hn).symm

theorem IsRun.after_order {p : Params} {moves : Nat → Move} {states : Nat → State} (h : IsRun p moves states)
    {n : Nat} {ports : List Port} (hm : moves n = .order ports) :
    states (n + 1) = { states n with schedule := ports } := by
  have hn := h.next n
  rw [hm] at hn
  exact (Host.Outcome.next.inj hn).symm

theorem IsRun.after_step {p : Params} {moves : Nat → Move} {states : Nat → State} (h : IsRun p moves states)
    {n : Nat} (hm : moves n = .step) : step (states n) = .next (states (n + 1)) := by
  have hn := h.next n
  rwa [hm] at hn

/-- The states of a run are reachable. -/
theorem IsRun.reachable {p : Params} {moves : Nat → Move} {states : Nat → State} (h : IsRun p moves states)
    (n : Nat) : Reachable p (states n) := by
  induction n with
  | zero => rw [h.start]; exact .reset
  | succ n ih =>
    cases hm : moves n with
    | deliver e => rw [h.after_deliver hm]; exact .deliver _ e ih
    | order ports => rw [h.after_order hm]; exact .order _ ports ih
    | step => exact .step _ _ ih (h.after_step hm)

/-- A move that serves another port, or none, leaves a port's queue with everything in it, in its place. -/
theorem IsRun.queue_of_not_serves {p : Params} {moves : Nat → Move} {states : Nat → State} (h : IsRun p moves states)
    {port : Port} {n : Nat} (hs : servesAt moves states port n = false) :
    ∃ more, (states (n + 1)).queue port = (states n).queue port ++ more := by
  cases hm : moves n with
  | deliver e =>
    rw [h.after_deliver hm, State.deliver_queue]
    split
    · exact ⟨_, rfl⟩
    · exact ⟨[], by simp⟩
  | order ports => rw [h.after_order hm]; exact ⟨[], by cases port <;> simp [State.queue]⟩
  | step =>
    rcases step_queue (h.after_step hm) with ⟨_, he⟩ | ⟨q, e, u, hq, _, _, hqs⟩
    · exact ⟨[], by rw [he]; simp⟩
    · have hne : port ≠ q := by
        rintro rfl
        simp [servesAt, hm, hq] at hs
      exact ⟨[], by rw [hqs port, if_neg hne]; simp⟩

/-- A move that serves a port applies the oldest event of its queue, which leaves the queue. -/
theorem IsRun.queue_of_serves {p : Params} {moves : Nat → Move} {states : Nat → State} (h : IsRun p moves states)
    {port : Port} {n : Nat} (hs : servesAt moves states port n = true) :
    ∃ e u, moves n = .step ∧ (states n).fetch = some (e, u) ∧ applyEvent e u = .next (states (n + 1)) ∧
      (states n).queue port = e :: (states (n + 1)).queue port := by
  simp only [servesAt, Bool.and_eq_true, beq_iff_eq] at hs
  rcases step_queue (h.after_step hs.1) with ⟨hq, _⟩ | ⟨q, e, u, hq, hf, ha, hqs⟩
  · rw [hs.2] at hq; cases hq
  · rw [hs.2] at hq; cases hq
    exact ⟨e, u, hs.1, hf, ha, by simpa using hqs port⟩

theorem servedCount_zero (moves : Nat → Move) (states : Nat → State) (port : Port) (n : Nat) :
    servedCount moves states port n 0 = 0 := rfl

theorem servedCount_add (moves : Nat → Move) (states : Nat → State) (port : Port) (n k l : Nat) :
    servedCount moves states port n (k + l) =
      servedCount moves states port n k + servedCount moves states port (n + k) l := by
  unfold servedCount
  rw [List.range_add, List.countP_append, List.countP_map]
  congr 2
  funext i
  simp [Nat.add_assoc]

end Sys2Proof.Machine
end

