-- ==== Sys2Proof/Tests/Slice0.lean ====
section
/-!
SUPPORT. The model's own tests: an ill-formed term for each check of WellFormed, the words of the opcode map
written out bit by bit, the vectors of `95_test_vectors.md` (each test names its vector), and for every
obligation with hypotheses a state and operands that meet them all.
-/

namespace Sys2Proof.Tests

open Sys2Proof.Machine

/-! ## Helpers -/

/-- The reset state of an instance of CAPACITY 4, the capacity of most vectors. -/
def inst (rev : FormatRev) (policy : FullPolicy) : State :=
  State.resetWith { rev := rev, capacity := 4, policy := policy }

def rev1 : State := inst .rev1 .evictOldest
def rev2 : State := inst .rev2 .evictOldest

/-- The operands of an RX event, with the data bytes given as a list. -/
def rxOps (id : Word) (dl : Byte) (d : List Byte) (ts : Word) : RxOperands :=
  { canId := id, isExtended := false, isRemoteRequest := false, dataLength := dl,
    data := Vector.ofFn fun i => d.getD i.val 0, timestamp := ts }

def rx (id : Word) (dl : Byte) (d : List Byte) (ts : Word) : Instr := .rxFrame (rxOps id dl d ts)

/-- The state after a few commands. -/
def after (is : List Instr) (s : State) : State :=
  match execAll is s with
  | .next t => t
  | _ => s

theorem after_inv {is : List Instr} {s : State} (hs : s.Inv) : (after is s).Inv := by
  unfold after
  split
  · exact (execAll_inv hs ‹_›).1
  · exact hs

theorem inst_inv (rev : FormatRev) (policy : FullPolicy) : (inst rev policy).Inv :=
  resetWith_inv (show 1 ≤ 4 ∧ 4 ≤ 255 by decide)

/-- One frame unread: that of E9 and X1. -/
def one (s : State) : State := after [rx 0x123 2 [0xDE, 0xAD] 0x100] s

/-- Two frames unread. -/
def two (s : State) : State := after [rx 0x123 2 [0xDE, 0xAD] 0x100, rx 0x456 3 [0xAA, 0xBB, 0xCC] 0x200] s

/-- A buffer of CAPACITY 4, full with the identifiers 1 to 4. -/
def full (s : State) : State :=
  after [rx 1 1 [0x11] 1, rx 2 1 [0x22] 2, rx 3 1 [0x33] 3, rx 4 1 [0x44] 4] s

/-- The parts of an outcome that the tests look at. -/
def hostOutOf : Host.Outcome State Fault Refusal → List HostAnswer
  | .next t => t.hostOut
  | _ => []

def rxOutOf : Host.Outcome State Fault Refusal → List (BitVec 3)
  | .next t => t.rxOut
  | _ => []

def lookupOutOf : Host.Outcome State Fault Refusal → List (Option Frame)
  | .next t => t.lookupOut
  | _ => []

def stateOf (o : Host.Outcome State Fault Refusal) : State :=
  match o with
  | .next t => t
  | _ => State.reset

/-- The frame bytes of vector E13. -/
def bytesE13 : List Byte := [0x00, 0x00, 0x04, 0x56, 0x03, 0xAA, 0xBB, 0xCC, 0, 0, 0, 0, 0, 0x3E]

/-! ## WellFormed: an ill-formed term for each check, and the form beside it that is well-formed -/

theorem test_wf_send_frame_needs_rev2 :
    Instr.wf .rev1 (.wrSendFrame []) = false ∧ Instr.wf .rev2 (.wrSendFrame []) = true := by decide

theorem test_wf_send_status_needs_rev2 :
    Instr.wf .rev1 (.rdSendStatus 4) = false ∧ Instr.wf .rev2 (.rdSendStatus 4) = true := by decide

theorem test_wf_unclaimed_30_needs_rev1 :
    Instr.wf .rev2 (.rdUnclaimed30 4) = false ∧ Instr.wf .rev1 (.rdUnclaimed30 4) = true ∧
    Instr.wf .rev2 (.wrUnclaimed30 []) = false ∧ Instr.wf .rev1 (.wrUnclaimed30 []) = true := by decide

theorem test_wf_unclaimed_needs_unnamed_address :
    Instr.wf .rev1 (.rdUnclaimed 0x02 1) = false ∧ Instr.wf .rev2 (.wrUnclaimed 0xC0 []) = false ∧
    Instr.wf .rev1 (.rdUnclaimed 0x30 1) = false ∧ Instr.wf .rev2 (.rdUnclaimed 0x77 1) = true ∧
    Instr.wf .rev1 (.wrUnclaimed 0xFF []) = true := by decide

/-! ## Decode: the words of R71 and R79, bits PORT DIR ADDR -/

theorem test_decode_claimed_reads :
    decode .rev1 0b00_1_00000010 (.hr 1) = .ok (.rdFramesCount 1) ∧
    decode .rev2 0b00_1_00110000 (.hr 4) = .ok (.rdSendStatus 4) ∧
    decode .rev2 0b00_1_01000000 (.hr 14) = .ok (.rdReceiveFrame 14) := by decide

theorem test_decode_claimed_writes :
    decode .rev1 0b00_0_00000010 (.hw [5]) = .ok (.wrFramesCount [5]) ∧
    decode .rev2 0b00_0_00110000 (.hw [1, 2]) = .ok (.wrSendFrame [1, 2]) ∧
    decode .rev2 0b00_0_01000000 (.hw []) = .ok (.wrReceiveFrame []) := by decide

theorem test_decode_dispatcher_reads :
    decode .rev1 0b00_1_00000001 (.hr 1) = .ok (.rdI2cAddress 1) ∧
    decode .rev1 0b00_1_00000011 (.hr 1) = .ok (.rdCanBaudRate 1) ∧
    decode .rev1 0b00_1_01010001 (.hr 1) = .ok (.rdI2cAddressSet 1) ∧
    decode .rev1 0b00_1_01100000 (.hr 1) = .ok (.rdMask0 1) ∧
    decode .rev1 0b00_1_01100101 (.hr 1) = .ok (.rdMask1 1) := by decide

theorem test_decode_dispatcher_writes :
    decode .rev2 0b00_0_00000001 (.hw [0x26]) = .ok (.wrI2cAddress [0x26]) ∧
    decode .rev2 0b00_0_00000011 (.hw [1]) = .ok (.wrCanBaudRate [1]) ∧
    decode .rev2 0b00_0_01010001 (.hw [0x5A]) = .ok (.wrI2cAddressSet [0x5A]) ∧
    decode .rev2 0b00_0_01100000 (.hw [1]) = .ok (.wrMask0 [1]) ∧
    decode .rev2 0b00_0_01100101 (.hw [1]) = .ok (.wrMask1 [1]) := by decide

theorem test_decode_filter_reads :
    decode .rev2 0b00_1_01110000 (.hr 1) = .ok (.rdFilt0 1) ∧
    decode .rev2 0b00_1_10000000 (.hr 1) = .ok (.rdFilt1 1) ∧
    decode .rev2 0b00_1_10010000 (.hr 1) = .ok (.rdFilt2 1) ∧
    decode .rev2 0b00_1_10100000 (.hr 1) = .ok (.rdFilt3 1) ∧
    decode .rev2 0b00_1_10110000 (.hr 1) = .ok (.rdFilt4 1) ∧
    decode .rev2 0b00_1_11000000 (.hr 1) = .ok (.rdFilt5 1) := by decide

theorem test_decode_filter_writes :
    decode .rev1 0b00_0_01110000 (.hw [1]) = .ok (.wrFilt0 [1]) ∧
    decode .rev1 0b00_0_10000000 (.hw [1]) = .ok (.wrFilt1 [1]) ∧
    decode .rev1 0b00_0_10010000 (.hw [1]) = .ok (.wrFilt2 [1]) ∧
    decode .rev1 0b00_0_10100000 (.hw [1]) = .ok (.wrFilt3 [1]) ∧
    decode .rev1 0b00_0_10110000 (.hw [1]) = .ok (.wrFilt4 [1]) ∧
    decode .rev1 0b00_0_11000000 (.hw [1]) = .ok (.wrFilt5 [1]) := by decide

theorem test_decode_unclaimed :
    decode .rev1 0b00_1_00110000 (.hr 4) = .ok (.rdUnclaimed30 4) ∧
    decode .rev1 0b00_0_00110000 (.hw [1]) = .ok (.wrUnclaimed30 [1]) ∧
    decode .rev2 0b00_1_01110111 (.hr 1) = .ok (.rdUnclaimed 0x77 1) ∧
    decode .rev2 0b00_0_11111111 (.hw [1]) = .ok (.wrUnclaimed 0xFF [1]) := by decide

theorem test_decode_receive_and_lookup :
    decode .rev1 0b01_0_00000000 (.rx (rxOps 7 0 [] 9)) = .ok (rx 7 0 [] 9) ∧
    decode .rev2 0b10_1_00000000 (.lq 0x123) = .ok (.lookup 0x123) := by decide

/-- The decoder does not read operands of another format as its own (R70). -/
theorem test_decode_refuses_operands_of_another_format :
    decode .rev2 0b00_1_01000000 (.hw []) = .error .wrongOperands ∧
    decode .rev2 0b01_0_00000000 (.lq 0) = .error .wrongOperands := by decide

theorem test_table_words :
    decodeTableWord 11 0x102 = some (.rdFramesCount 0) ∧ decodeTableWord 11 0x030 = some (.wrSendFrame []) ∧
    decodeTableWord 11 0x500 = some (.lookup 0) ∧ decodeTableWord 11 0x600 = none := by decide

set_option maxRecDepth 100000 in
/-- R84; the bytes are those of `SEND id=0x100, dl=1, data=[01]` in program P3. -/
theorem test_pseudo_instructions :
    expandPseudo .rev1 .count = some (.rdFramesCount 1) ∧ expandPseudo .rev1 .recv = some (.rdReceiveFrame 16) ∧
    expandPseudo .rev2 .recv = some (.rdReceiveFrame 14) ∧ expandPseudo .rev2 .status = some (.rdSendStatus 4) ∧
    expandPseudo .rev2 (.send 0x100 1 #v[1, 2, 3, 0, 0, 0, 0, 0]) =
      some (.wrSendFrame [0x00, 0x00, 0x01, 0x00, 0x01, 0x01, 0, 0, 0, 0, 0, 0, 0, 0x75]) := by decide

/-! ## The codec (`95_test_vectors.md` 2.1 to 2.3) -/

set_option maxRecDepth 20000 in
/-- CR5, CR6 and CR7. -/
theorem test_crc8_vectors :
    crc8 [0x31, 0x32, 0x33, 0x34, 0x35, 0x36, 0x37, 0x38, 0x39] = 0xF4 ∧ crc8 [0xDE, 0xAD] = 0x26 ∧
    crc8 [0xAD, 0xDE] = 0xE5 := by decide

set_option maxRecDepth 100000 in
/-- E3: a remote request with no data. -/
theorem test_encode_r1_E3 :
    encodeR1 { canId := 0x7FF, isExtended := false, isRemoteRequest := true, dataLength := 0,
               data := Vector.replicate 8 0 } =
      .ok [0x00, 0x00, 0x07, 0xFF, 0x00, 0x01, 0x00, 0, 0, 0, 0, 0, 0, 0, 0, 0xCA] := by decide

set_option maxRecDepth 100000 in
/-- E17: bytes beyond dataLength are sent as 0x00. -/
theorem test_encode_r2_E17 :
    encodeR2 { canId := 0x123, isExtended := false, isRemoteRequest := false, dataLength := 2,
               data := #v[0xDE, 0xAD, 0x77, 0x77, 0x77, 0x77, 0x77, 0x77] } =
      .ok [0x00, 0x00, 0x01, 0x23, 0x02, 0xDE, 0xAD, 0, 0, 0, 0, 0, 0, 0xBB] := by decide

set_option maxRecDepth 100000 in
/-- DE2: a flag byte of 0x02 reads as true. -/
theorem test_decode_r1_DE2 :
    decodeR1 [0x00, 0x00, 0x01, 0x23, 0x02, 0x00, 0x02, 0xDE, 0xAD, 0, 0, 0, 0, 0, 0, 0xE3] =
      .ok { canId := 0x123, isExtended := true, isRemoteRequest := false, dataLength := 2,
            data := #v[0xDE, 0xAD, 0, 0, 0, 0, 0, 0] } := by decide

set_option maxRecDepth 100000 in
/-- DE8: padding that is not zero is accepted and discarded. -/
theorem test_decode_r2_DE8 :
    decodeR2 [0x00, 0x00, 0x01, 0x23, 0x02, 0xDE, 0xAD, 0x55, 0, 0, 0, 0, 0, 0xDE] =
      .ok { canId := 0x123, isExtended := false, isRemoteRequest := false, dataLength := 2,
            data := #v[0xDE, 0xAD, 0, 0, 0, 0, 0, 0] } := by decide

set_option maxRecDepth 100000 in
/-- DE9, DE10 and DE12: the three errors, in the order of R105. -/
theorem test_decode_r2_errors :
    decodeR2 [0x00, 0x00, 0x01, 0x23, 0x09, 0, 0, 0, 0, 0, 0, 0, 0, 0x3C] = .error .invalidLength ∧
    decodeR2 [0x00, 0x00, 0x01, 0x23, 0x09, 0xDE, 0xAD, 0, 0, 0, 0, 0, 0, 0xBB] =
      .error .checksumMismatch ∧
    decodeR2 [0x00, 0x00, 0x01, 0x23, 0x02, 0xDE, 0xAD, 0, 0, 0, 0, 0, 0] = .error .malformed := by decide

/-! ## The host port (`95_test_vectors.md` 2.6) -/

set_option maxRecDepth 100000 in
/-- H2. -/
theorem test_rd_frames_count : hostOutOf (exec (.rdFramesCount 3) (two rev1)) = [⟨true, some [2, 0, 0]⟩] := by
  decide

set_option maxRecDepth 100000 in
/-- H4. -/
theorem test_wr_frames_count :
    hostOutOf (exec (.wrFramesCount [5]) (two rev1)) = [⟨true, none⟩] ∧
    (stateOf (exec (.wrFramesCount [5]) (two rev1))).count = 2 := by decide

set_option maxRecDepth 100000 in
/-- H11. -/
theorem test_wr_send_frame_accepted :
    (stateOf (exec (.wrSendFrame bytesE13) rev2)).txOut =
      [⟨0x456, 3, #v[0xAA, 0xBB, 0xCC, 0, 0, 0, 0, 0]⟩] ∧
    (stateOf (exec (.wrSendFrame bytesE13) rev2)).sendStatus = 0x00000000 := by decide

set_option maxRecDepth 100000 in
/-- H12. -/
theorem test_wr_send_frame_rejected :
    (stateOf (exec (.wrSendFrame (bytesE13.set 13 0x3F)) rev2)).txOut = [] ∧
    (stateOf (exec (.wrSendFrame (bytesE13.set 13 0x3F)) rev2)).sendStatus = 0x01010101 := by decide

set_option maxRecDepth 100000 in
/-- H10, and R165 with n = 6. -/
theorem test_rd_send_status_at_reset :
    hostOutOf (exec (.rdSendStatus 6) rev2) = [⟨true, some [0, 0, 0, 0, 0, 0]⟩] := by decide

set_option maxRecDepth 100000 in
/-- H13: the read answers the rejection and does not clear it. -/
theorem test_rd_send_status_rejected :
    hostOutOf (exec (.rdSendStatus 4) (after [.wrSendFrame []] rev2)) =
      [⟨true, none⟩, ⟨true, some [1, 1, 1, 1]⟩] ∧
    (stateOf (exec (.rdSendStatus 4) (after [.wrSendFrame []] rev2))).sendStatus = 0x01010101 := by decide

set_option maxRecDepth 100000 in
/-- H5. -/
theorem test_rd_receive_frame :
    hostOutOf (exec (.rdReceiveFrame 14) (one rev2)) =
      [⟨true, some [0x00, 0x00, 0x01, 0x23, 0x02, 0xDE, 0xAD, 0, 0, 0, 0, 0, 0, 0xBB]⟩] ∧
    (stateOf (exec (.rdReceiveFrame 14) (one rev2))).count = 0 := by decide

set_option maxRecDepth 100000 in
/-- H8: a short read consumes the frame, and with n = 0 too (R161). -/
theorem test_rd_receive_frame_short :
    hostOutOf (exec (.rdReceiveFrame 4) (one rev2)) = [⟨true, some [0x00, 0x00, 0x01, 0x23]⟩] ∧
    (stateOf (exec (.rdReceiveFrame 0) (one rev2))).count = 0 := by decide

set_option maxRecDepth 100000 in
/-- H9. -/
theorem test_wr_receive_frame :
    hostOutOf (exec (.wrReceiveFrame []) (one rev2)) = [⟨true, none⟩] ∧
    (stateOf (exec (.wrReceiveFrame []) (one rev2))).count = 1 := by decide

/-- H16, H17 and H18, for every row that the block does not claim. -/
theorem test_unclaimed_rows :
    ∀ i ∈ [Instr.rdI2cAddress 1, .wrI2cAddress [0x26], .rdCanBaudRate 1, .wrCanBaudRate [1],
           .rdI2cAddressSet 1, .wrI2cAddressSet [0x5A], .rdMask0 1, .wrMask0 [1], .rdMask1 1, .wrMask1 [1],
           .rdFilt0 1, .wrFilt0 [1], .rdFilt1 1, .wrFilt1 [1], .rdFilt2 1, .wrFilt2 [1], .rdFilt3 1,
           .wrFilt3 [1], .rdFilt4 1, .wrFilt4 [1], .rdFilt5 1, .wrFilt5 [1], .rdUnclaimed30 4,
           .wrUnclaimed30 bytesE13, .rdUnclaimed 0x77 1, .wrUnclaimed 0x77 [1]],
      hostOutOf (exec i rev1) = [⟨false, none⟩] := by decide

/-! ## The receive and lookup ports and reset (`95_test_vectors.md` 2.4, 2.5, 2.7) -/

set_option maxRecDepth 100000 in
/-- B6: the fifth identifier evicts the oldest and takes its slot. -/
theorem test_rx_evicts_oldest :
    rxOutOf (exec (rx 5 1 [0x55] 5) (full rev1)) = [0, 0, 0, 0, 2] ∧
    (stateOf (exec (rx 5 1 [0x55] 5) (full rev1))).head = 1 ∧
    (stateOf (exec (rx 5 1 [0x55] 5) (full rev1))).index.head? = some { key := 5, pos := 0 } := by decide

set_option maxRecDepth 100000 in
/-- B7: a full buffer does not block an update, and B9: the identifier is checked before the length. -/
theorem test_rx_updates_when_full :
    rxOutOf (exec (rx 3 1 [0xAA] 9) (full (inst .rev2 .reject))) = [0, 0, 0, 0, 1] ∧
    rxOutOf (exec (rx 0x20000000 12 [] 9) rev2) = [5] := by decide

set_option maxRecDepth 100000 in
/-- X4. -/
theorem test_lookup_hit :
    lookupOutOf (exec (.lookup 0x123) (one rev2)) =
      [some { canId := 0x123, isExtended := false, isRemoteRequest := false, dataLength := 2,
              data := #v[0xDE, 0xAD, 0, 0, 0, 0, 0, 0], timestamp := 0x100, isSent := false }] := by decide

/-- L1: a search for ID_EMPTY misses, though every entry is empty. -/
theorem test_lookup_miss : lookupOutOf (exec (.lookup 0xFFFFFFFF) rev2) = [none] := by decide

set_option maxRecDepth 100000 in
/-- X5: with a frame unread and a rejected send, a reset leaves an empty block. -/
theorem test_reset_event :
    stateOf (step ((after [.wrSendFrame []] (one rev2)).placeFirst .reset)) =
      { rev2 with rxOut := [0], hostOut := [⟨true, none⟩], arbTick := 1 } := by decide

/-! ## The first instruction after reset -/

theorem test_fetch_word_rd_frames_count :
    hostOutOf (step (State.reset.withFetchWord 11 0x102)) = [⟨true, some []⟩] := by decide

set_option maxRecDepth 100000 in
theorem test_fetch_word_rx_frame : rxOutOf (step (State.reset.withFetchWord 11 0x200)) = [0] := by decide

/-! ## Witnesses: for every obligation with hypotheses, values that meet them, at the ends of their ranges -/

theorem test_witness_EncodedCommandDecodesToItself :
    Instr.wf .rev1 (.wrUnclaimed30 [1]) = true ∧ Instr.wf .rev2 (.rdUnclaimed 0xFF 0) = true := by decide

theorem test_witness_DecodedWordReencodesToItself :
    decode .rev2 0x1FF (.hr 2) = .ok (.rdUnclaimed 0xFF 2) := by decide

theorem test_witness_ReservedWordsAreRefused :
    0x600 ≤ (0x600#11).toNat ∧ 0x600 ≤ (0x7FF#11).toNat ∧
    (0x201 ≤ (0x201#11).toNat ∧ (0x201#11).toNat ≤ 0x3FF) ∧
    (0x201 ≤ (0x3FF#11).toNat ∧ (0x3FF#11).toNat ≤ 0x3FF) ∧
    (0x400 ≤ (0x400#11).toNat ∧ (0x4FF#11).toNat ≤ 0x4FF) ∧
    (0x501 ≤ (0x501#11).toNat ∧ (0x5FF#11).toNat ≤ 0x5FF) ∧
    (0x0FF#11).toNat ≤ 0xFF ∧ (0x100 ≤ (0x100#11).toNat ∧ (0x1FF#11).toNat ≤ 0x1FF) := by decide

/-- The frame of vector E13. -/
def frameE13 : WireFrame :=
  { canId := 0x456, isExtended := false, isRemoteRequest := false, dataLength := 3,
    data := #v[0xAA, 0xBB, 0xCC, 0, 0, 0, 0, 0] }

set_option maxRecDepth 100000 in
/-- The changed byte is the checksum, the last one. -/
theorem test_witness_SingleByteChangeIsDetected :
    decodeFrame .rev2 bytesE13 = .ok frameE13 ∧ 13 < bytesE13.length ∧ bytesE13[13]? ≠ some 0x3F := by decide

theorem test_witness_EncodeRevision1LaysOutTheFrame :
    8 < ({ frameE13 with dataLength := 9 } : WireFrame).dataLength.toNat ∧
    ({ frameE13 with dataLength := 8 } : WireFrame).dataLength.toNat ≤ 8 := by decide

theorem test_witness_EncodeRevision2LaysOutTheFrame :
    8 < ({ frameE13 with dataLength := 255 } : WireFrame).dataLength.toNat ∧
    ({ frameE13 with dataLength := 8 } : WireFrame).dataLength.toNat ≤ 8 := by decide

/-- The bytes of vectors DE3 (dataLength 9) and E2 (dataLength 8). -/
def bytesDE3 : List Byte := [0x00, 0x00, 0x01, 0x23, 0x00, 0x00, 0x09, 0, 0, 0, 0, 0, 0, 0, 0, 0x5A]
def bytesE2 : List Byte := [0x18, 0xDA, 0xF1, 0x10, 0x01, 0x00, 0x08, 1, 2, 3, 4, 5, 6, 7, 8, 0x5A]

set_option maxRecDepth 100000 in
theorem test_witness_DecodeRevision1ChecksThenReads :
    (bytesE2.take 15).length ≠ 16 ∧
    ((bytesE2.set 15 0).length = 16 ∧ (bytesE2.set 15 0)[15]? ≠ some (crc8 ((bytesE2.set 15 0).take 15))) ∧
    (bytesDE3.length = 16 ∧ bytesDE3[15]? = some (crc8 (bytesDE3.take 15)) ∧ bytesDE3[6]? = some 9 ∧
      8 < (9 : Byte).toNat) ∧
    (bytesE2.length = 16 ∧ bytesE2[15]? = some (crc8 (bytesE2.take 15)) ∧ bytesE2[0]? = some 0x18 ∧
      bytesE2[1]? = some 0xDA ∧ bytesE2[2]? = some 0xF1 ∧ bytesE2[3]? = some 0x10 ∧ bytesE2[4]? = some 1 ∧
      bytesE2[5]? = some 0 ∧ bytesE2[6]? = some 8 ∧ (8 : Byte).toNat ≤ 8) := by decide

/-- The bytes of vectors DE9 (dataLength 9) and E10 (dataLength 8). -/
def bytesDE9 : List Byte := [0x00, 0x00, 0x01, 0x23, 0x09, 0, 0, 0, 0, 0, 0, 0, 0, 0x3C]
def bytesE10 : List Byte := [0x18, 0xDA, 0xF1, 0x10, 0x08, 1, 2, 3, 4, 5, 6, 7, 8, 0x2F]

set_option maxRecDepth 100000 in
theorem test_witness_DecodeRevision2ChecksThenReads :
    (bytesE10.take 13).length ≠ 14 ∧
    ((bytesE10.set 13 0).length = 14 ∧
      (bytesE10.set 13 0)[13]? ≠ some (crc8 ((bytesE10.set 13 0).take 13))) ∧
    (bytesDE9.length = 14 ∧ bytesDE9[13]? = some (crc8 (bytesDE9.take 13)) ∧ bytesDE9[4]? = some 9 ∧
      8 < (9 : Byte).toNat) ∧
    (bytesE10.length = 14 ∧ bytesE10[13]? = some (crc8 (bytesE10.take 13)) ∧ bytesE10[0]? = some 0x18 ∧
      bytesE10[1]? = some 0xDA ∧ bytesE10[2]? = some 0xF1 ∧ bytesE10[3]? = some 0x10 ∧
      bytesE10[4]? = some 8 ∧ (8 : Byte).toNat ≤ 8) := by decide

theorem test_witness_DecodeInvertsEncode :
    ({ frameE13 with dataLength := 8 } : WireFrame).dataLength.toNat ≤ 8 ∧
    (FormatRev.rev2 = .rev2 → frameE13.isExtended = false ∧ frameE13.isRemoteRequest = false) ∧
    Canonical frameE13.dataLength frameE13.data := by decide

set_option maxRecDepth 100000 in
theorem test_witness_EncodeInvertsDecodeOnCanonicalBytes :
    decodeR1 bytesE2 =
      .ok { canId := 0x18DAF110, isExtended := true, isRemoteRequest := false, dataLength := 8,
            data := #v[1, 2, 3, 4, 5, 6, 7, 8] } ∧
    decodeR2 bytesE13 = .ok frameE13 := by decide

/-- Of a reset and a host event, both pending, the arbitration order names the reset. -/
theorem test_witness_ResetEventEmptiesTheBlock :
    ({ rev2 with hostIn := [.read 0x02 1], resetIn := 1, schedule := [.reset] } : State).fetch =
      some (.reset, { rev2 with hostIn := [.read 0x02 1], arbTick := 1 }) := by decide

theorem test_witness_EveryInstanceResetsIntoTheInvariants :
    ({ rev := .rev1, capacity := 1, policy := .reject } : Params).Wf ∧
    ({ rev := .rev2, capacity := 255, policy := .evictOldest } : Params).Wf := by decide

theorem test_witness_EveryStepKeepsTheInvariants :
    (full rev1).Inv ∧ step (full rev1) = .next (stateOf (step (full rev1))) :=
  ⟨after_inv (inst_inv _ _), rfl⟩

theorem test_witness_ReachableStatesMeetTheInvariants :
    Config.builtParams.Wf ∧
    Reachable Config.builtParams (stateOf (step (State.reset.deliver (.lookup 0)))) :=
  ⟨by decide, .step _ _ (.deliver _ (.lookup 0) .reset) rfl⟩

set_option maxRecDepth 100000 in
theorem test_witness_LiveSlotsHoldDistinctIds :
    (two rev1).Inv ∧ 1 < (two rev1).params.capacity ∧ ((two rev1).slot 1).isSent = false :=
  ⟨after_inv (inst_inv _ _), by decide, by decide⟩

theorem test_witness_CountIsTheNumberOfUnreadSlots : (full rev2).Inv := after_inv (inst_inv _ _)

theorem test_witness_ParametersNeverChange :
    step (rev2.placeFirst .reset) = .next (stateOf (step (rev2.placeFirst .reset))) ∧
    exec (.wrSendFrame []) rev2 = .next (stateOf (exec (.wrSendFrame []) rev2)) := ⟨rfl, rfl⟩

theorem test_witness_RxInvalidOperandsAreDropped :
    0x1FFFFFFF < (rxOps 0x20000000 0 [] 0).canId.toNat ∧ (rxOps 0x01010101 0 [] 0).canId = 0x01010101#32 ∧
    (rxOps 0x01010102 0 [] 0).canId = 0x01010102#32 ∧
    ((rxOps 0x1FFFFFFF 9 [] 0).canId.toNat ≤ 0x1FFFFFFF ∧ (rxOps 0x1FFFFFFF 9 [] 0).canId ≠ 0x01010101#32 ∧
      (rxOps 0x1FFFFFFF 9 [] 0).canId ≠ 0x01010102#32 ∧ 8 < (rxOps 0x1FFFFFFF 9 [] 0).dataLength.toNat) := by
  decide

set_option maxRecDepth 100000 in
/-- In a full buffer, the newest frame's identifier. -/
theorem test_witness_RxKnownIdUpdatesInPlace :
    (full rev1).Inv ∧ ValidRx (rxOps 4 8 [] 0) ∧ 3 < (full rev1).params.capacity ∧
    ((full rev1).entry 3).key = (rxOps 4 8 [] 0).canId :=
  ⟨after_inv (inst_inv _ _), by decide, by decide, by decide⟩

set_option maxRecDepth 100000 in
/-- The largest identifier, with one slot free. -/
theorem test_witness_RxNewIdIsStored :
    (two rev1).Inv ∧ ValidRx (rxOps 0x1FFFFFFF 8 [] 0) ∧
    (∀ k, k < (two rev1).params.capacity → ((two rev1).entry k).key ≠ (rxOps 0x1FFFFFFF 8 [] 0).canId) ∧
    (two rev1).count.toNat < (two rev1).params.capacity :=
  ⟨after_inv (inst_inv _ _), by decide, by decide, by decide⟩

set_option maxRecDepth 100000 in
theorem test_witness_RxFullBufferRejects :
    (full (inst .rev1 .reject)).Inv ∧ ValidRx (rxOps 5 0 [] 0) ∧
    (∀ k, k < (full (inst .rev1 .reject)).params.capacity →
      ((full (inst .rev1 .reject)).entry k).key ≠ (rxOps 5 0 [] 0).canId) ∧
    (full (inst .rev1 .reject)).count.toNat = (full (inst .rev1 .reject)).params.capacity ∧
    (full (inst .rev1 .reject)).params.policy = .reject :=
  ⟨after_inv (inst_inv _ _), by decide, by decide, by decide, by decide⟩

set_option maxRecDepth 100000 in
theorem test_witness_RxFullBufferEvictsOldest :
    (full rev2).Inv ∧ ValidRx (rxOps 0 8 [] 0) ∧
    (∀ k, k < (full rev2).params.capacity → ((full rev2).entry k).key ≠ (rxOps 0 8 [] 0).canId) ∧
    (full rev2).count.toNat = (full rev2).params.capacity ∧ (full rev2).params.policy = .evictOldest :=
  ⟨after_inv (inst_inv _ _), by decide, by decide, by decide, by decide⟩

theorem test_witness_RxOutcomeCodesStayInRange :
    exec (rx 5 9 [] 0) rev2 = .next (stateOf (exec (rx 5 9 [] 0) rev2)) := rfl

set_option maxRecDepth 100000 in
/-- Under REJECT, with the last slot free. -/
theorem test_witness_LatestFrameWins :
    (two (inst .rev2 .reject)).Inv ∧ ValidRx (rxOps 7 1 [1] 1) ∧ ValidRx (rxOps 7 1 [9] 2) ∧
    (rxOps 7 1 [1] 1).canId = (rxOps 7 1 [9] 2).canId ∧
    ¬ ((two (inst .rev2 .reject)).params.policy = .reject ∧
      (two (inst .rev2 .reject)).count.toNat = (two (inst .rev2 .reject)).params.capacity ∧
      ∀ k, k < (two (inst .rev2 .reject)).params.capacity →
        ((two (inst .rev2 .reject)).entry k).key ≠ (rxOps 7 1 [1] 1).canId) :=
  ⟨after_inv (inst_inv _ _), by decide, by decide, rfl, by decide⟩

/-- CAPACITY 1, under both policies. -/
theorem test_witness_FullPolicyIsDeterministic :
    ({ rev := .rev1, capacity := 1, policy := .reject } : Params).Wf ∧
    ({ rev := .rev1, capacity := 1, policy := .evictOldest } : Params).Wf ∧
    ([] : List RxOperands).length + 1 = 1 ∧
    (∀ r ∈ rxOps 0 0 [] 0 :: [] ++ [rxOps 0x1FFFFFFF 8 [] 0], ValidRx r) ∧
    ((rxOps 0 0 [] 0 :: [] ++ [rxOps 0x1FFFFFFF 8 [] 0]).map RxOperands.canId).Nodup := by decide

/-- Empty; one frame unread; and the record with dataLength 9 that only the error arm of R166 meets. -/
theorem test_witness_ReceiveReadConsumesTheOldest :
    rev2.count = 0 ∧
    (({ rev2 with count := 1, slots := [{ Frame.free with dataLength := 9 }] } : State).count ≠ 0 ∧
      8 < (({ rev2 with count := 1, slots := [{ Frame.free with dataLength := 9 }] } : State).slot
        rev2.head.toNat).dataLength.toNat) ∧
    ((one rev2).Inv ∧ (one rev2).count ≠ 0) :=
  ⟨rfl, by decide, after_inv (inst_inv _ _), by decide⟩

theorem test_witness_LookupAnswersTheLiveFrame : (one rev1).Inv := after_inv (inst_inv _ _)

theorem test_witness_RxRefinesTheUnreadList : (full (inst .rev1 .reject)).Inv := after_inv (inst_inv _ _)

set_option maxRecDepth 100000 in
theorem test_witness_ReadsRefineTheUnreadList :
    rev2.Inv ∧ rev2.unread = [] ∧ (two rev2).Inv ∧
    (two rev2).unread = (two rev2).slot 0 :: [(two rev2).slot 1] :=
  ⟨inst_inv _ _, rfl, after_inv (inst_inv _ _), by decide⟩

/-- The frame of `one` again, in slot 1: slot 0 has been read. -/
def moved : State :=
  { after [rx 9 0 [] 9, .rdReceiveFrame 14, rx 0x123 2 [0xDE, 0xAD] 0x100] rev2 with
    hostOut := [], rxOut := [0] }

set_option maxRecDepth 100000 in
theorem test_witness_PositionsAreNotObservable :
    (one rev2).Inv ∧ moved.Inv ∧ one rev2 ≠ moved ∧ Instr.wf (one rev2).params.rev (.rdReceiveFrame 14) = true ∧
    (one rev2).params = moved.params ∧ (one rev2).unread = moved.unread ∧
    (one rev2).sendStatus = moved.sendStatus ∧ (one rev2).hostOut = moved.hostOut ∧
    (one rev2).txOut = moved.txOut ∧ (one rev2).rxOut = moved.rxOut ∧
    (one rev2).lookupOut = moved.lookupOut := by
  have h : (after [rx 9 0 [] 9, .rdReceiveFrame 14, rx 0x123 2 [0xDE, 0xAD] 0x100] rev2).Inv :=
    after_inv (inst_inv _ _)
  refine ⟨after_inv (inst_inv _ _), h.of_block rfl rfl rfl rfl rfl h.statusLegal, ?_⟩
  decide

set_option maxRecDepth 100000 in
theorem test_witness_PositiveCountIsAPromise :
    (two rev2).Inv ∧
    (∀ i ∈ [Instr.rdReceiveFrame 14, .wrSendFrame []], i.wf (two rev2).params.rev = true) ∧
    [Instr.rdReceiveFrame 14, .wrSendFrame []].countP isReceiveRead < (two rev2).count.toNat :=
  ⟨after_inv (inst_inv _ _), by decide, by decide⟩

theorem test_witness_HostEventsAreClaimedByAddress :
    (∃ n, HostEvent.read 0x30 4 = .read 0x30 n) ∧ (∃ payload, HostEvent.write 0x51 [0x5A] = .write 0x51 payload) :=
  ⟨⟨4, rfl⟩, ⟨[0x5A], rfl⟩⟩

theorem test_witness_ReadsAreCutOrFilledToLength : 3 < 4 ∧ rev2.params.rev = .rev2 := by decide

theorem test_witness_CountReadAnswersCount : 0 < 1 := by decide

set_option maxRecDepth 100000 in
theorem test_witness_SendFrameEmitsOrRejects :
    rev2.params.rev = .rev2 ∧ decodeR2 bytesE13 = .ok frameE13 ∧ decodeR2 [] = .error .malformed := by decide

theorem test_witness_StatusReadAnswersSendStatus : rev2.params.rev = .rev2 ∧ 4 < 6 := by decide

theorem test_witness_SendPseudoTransmitsItsFrame : rev2.params.rev = .rev2 ∧ (8 : Byte).toNat ≤ 8 := by decide

theorem test_witness_SendStatusIsTheLastSendResult :
    execAll [.wrSendFrame [], .rdSendStatus 4] rev2 =
      .next (stateOf (execAll [.wrSendFrame [], .rdSendStatus 4] rev2)) := rfl

set_option maxRecDepth 100000 in
theorem test_witness_OnlySendFrameEmits :
    exec (.wrSendFrame bytesE13) rev2 = .next (stateOf (exec (.wrSendFrame bytesE13) rev2)) := rfl

theorem test_witness_DispatcherRegistersAreUnclaimed :
    Instr.wrFilt0 [1] ∈
      [Instr.rdI2cAddress 1, .wrI2cAddress [1], .rdCanBaudRate 1, .wrCanBaudRate [1], .rdI2cAddressSet 1,
       .wrI2cAddressSet [1], .rdMask0 1, .wrMask0 [1], .rdMask1 1, .wrMask1 [1], .rdFilt0 1,
       .wrFilt0 [1]] := by decide

theorem test_witness_FilterRegistersAreUnclaimed :
    Instr.rdFilt1 1 ∈
      [Instr.rdFilt1 1, .wrFilt1 [1], .rdFilt2 1, .wrFilt2 [1], .rdFilt3 1, .wrFilt3 [1], .rdFilt4 1,
       .wrFilt4 [1], .rdFilt5 1, .wrFilt5 [1]] := by decide

theorem test_witness_OtherAddressesAreUnclaimed :
    rev1.params.rev = .rev1 ∧
    ∀ addr ∈ [(0x00 : Byte), 0x04, 0xC1, 0xFF],
      addr ∉ [(0x01 : Byte), 0x02, 0x03, 0x30, 0x40, 0x51, 0x60, 0x65, 0x70, 0x80, 0x90, 0xA0, 0xB0,
        0xC0] := by decide

theorem test_witness_RowsAreAbsentWhereTheirConditionFails :
    rev1.params.rev = .rev1 ∧ rev2.params.rev = .rev2 ∧
    (0x30 : Byte) ∈ [(0x01 : Byte), 0x02, 0x03, 0x30, 0x40, 0x51, 0x60, 0x65, 0x70, 0x80, 0x90, 0xA0, 0xB0,
      0xC0] := by decide

/-- A command that neither inserts, nor takes, nor sends. -/
theorem test_witness_OnlyInsertAndTakeNextChangeTheBuffer :
    exec (.rdFramesCount 1) rev2 = .next (stateOf (exec (.rdFramesCount 1) rev2)) ∧
    (∀ r, Instr.rdFramesCount 1 ≠ .rxFrame r) ∧ (∀ n, Instr.rdFramesCount 1 ≠ .rdReceiveFrame n) ∧
    (∀ payload, Instr.rdFramesCount 1 ≠ .wrSendFrame payload) :=
  ⟨rfl, nofun, nofun, nofun⟩

theorem test_witness_CommandsAnswerTheirOwnPort :
    exec (.rdReceiveFrame 4) rev2 = .next (stateOf (exec (.rdReceiveFrame 4) rev2)) ∧
    exec (rx 1 0 [] 0) rev2 = .next (stateOf (exec (rx 1 0 [] 0) rev2)) ∧
    exec (.lookup 1) rev2 = .next (stateOf (exec (.lookup 1) rev2)) := ⟨rfl, rfl, rfl⟩

/-- A lookup, with a host event pending beside it; and no event pending. -/
theorem test_witness_StepRunsTheDecodedCommand :
    ({ rev2 with hostIn := [.read 0x02 1], lookupIn := [5], schedule := [.lookup] } : State).fetch =
      some (.lookup 5, { rev2 with hostIn := [.read 0x02 1], arbTick := 1 }) ∧
    eventCommand (.lookup 5) = some (0x500, .lq 5) ∧ decode rev2.params.rev 0x500 (.lq 5) = .ok (.lookup 5) ∧
    rev2.fetch = none := by decide

theorem test_witness_NextEventIsTheOldestOfItsPort :
    ({ rev2 with hostIn := [.read 0x02 1, .write 0x02 []] } : State).fetch =
      some (.host (.read 0x02 1), { rev2 with hostIn := [.write 0x02 []], arbTick := 1 }) ∧
    rev2.pendingCount = 0 := by decide

theorem test_witness_RunsAreInterleavingsOfThePorts :
    Host.Core.run Sys2Proof.core 1 (rev2.placeFirst (.lookup 5)) =
      .next (stateOf (Host.Core.run Sys2Proof.core 1 (rev2.placeFirst (.lookup 5)))) := rfl

theorem test_witness_EveryInterleavingCanHappen : (full rev2).pendingCount = 0 := by decide

/-- A run of endless lookups, each delivered and then applied: its moves, and its states. -/
def loopMoves (n : Nat) : Move := if n % 2 = 0 then .deliver (.lookup 5) else .step
def loopState (k : Nat) : State := { rev2 with lookupOut := List.replicate k none, arbTick := k }
def loopStates (n : Nat) : State :=
  if n % 2 = 0 then loopState (n / 2) else (loopState (n / 2)).deliver (.lookup 5)

theorem loop_step (k : Nat) : step ((loopState k).deliver (.lookup 5)) = .next (loopState (k + 1)) := by
  have h : step ((loopState k).deliver (.lookup 5)) =
      .next { loopState (k + 1) with lookupOut := List.replicate k none ++ [none] } := rfl
  rw [h, ← List.replicate_succ']
  rfl

theorem test_witness_DeliveredCommandsAreEventuallyApplied :
    IsRun rev2.params loopMoves loopStates ∧ WeaklyFair loopMoves loopStates ∧
    loopMoves 0 = .deliver (.lookup 5) := by
  refine ⟨⟨rfl, fun n => ?_⟩, fun port n h => ?_, rfl⟩
  · rcases Nat.mod_two_eq_zero_or_one n with hn | hn
    · rw [loopMoves, if_pos hn, loopStates, if_pos hn, loopStates, if_neg (by omega),
        show (n + 1) / 2 = n / 2 by omega]
      rfl
    · rw [loopMoves, if_neg (by omega), loopStates, if_neg (by omega), loopStates, if_pos (by omega),
        show (n + 1) / 2 = n / 2 + 1 by omega]
      exact loop_step _
  · have hr := h (2 * n) (by omega)
    rw [loopStates, if_pos (by omega)] at hr
    cases port <;> cases hr

end Sys2Proof.Tests
end

section
/-!
PROOFS of the family `10_state.md`. The invariants of R27 at reset, over a step and over every reachable state;
the size of the slot file's live part; which commands write the block's state; and the block seen as the list
of its unread frames (R31): one command refines the list, and two states with the same list answer alike.
-/

namespace Sys2Proof.Machine

/-! ### The invariants at reset and over a step (R27) -/

/-- Settles O16: the built parameters have a CAPACITY of R9. -/
theorem resetMeetsTheInvariants : Obligations.ResetMeetsTheInvariants :=
  resetWith_inv (by decide : Config.builtParams.Wf)

/-- Settles O17. -/
theorem everyInstanceResetsIntoTheInvariants : Obligations.EveryInstanceResetsIntoTheInvariants :=
  fun _ hp => resetWith_inv hp

theorem step_inv {s t : State} (hs : s.Inv) (h : step s = .next t) : t.Inv := by
  rcases step_cases s with ⟨_, hidle⟩ | ⟨e, u, hfetch, happly⟩
  · rw [hidle] at h
    cases h
    exact hs
  · rw [happly] at h
    exact applyEvent_inv (State.fetch_inv hs hfetch) h

theorem step_params {s t : State} (h : step s = .next t) : t.params = s.params := by
  rcases step_cases s with ⟨_, hidle⟩ | ⟨e, u, hfetch, happly⟩
  · rw [hidle] at h
    cases h
    rfl
  · rw [happly] at h
    exact (applyEvent_params h).trans (State.fetch_params hfetch)

/-- Settles O18: the event is fetched, which touches no block state, and then applied. -/
theorem everyStepKeepsTheInvariants : Obligations.EveryStepKeepsTheInvariants :=
  fun _ _ hs h => step_inv hs h

@[simp] theorem State.deliver_params (s : State) (e : Event) : (s.deliver e).params = s.params := by
  cases e <;> rfl

/-- A delivery writes a queue, of which the invariants do not speak. -/
theorem State.deliver_inv {s : State} (hs : s.Inv) (e : Event) : (s.deliver e).Inv := by
  cases e <;> exact hs.of_block rfl rfl rfl rfl rfl hs.statusLegal

/-- Settles O19, by induction on how the state is reached. -/
theorem reachableStatesMeetTheInvariants : Obligations.ReachableStatesMeetTheInvariants := by
  intro p s hp hr
  induction hr with
  | reset => exact ⟨resetWith_inv hp, rfl⟩
  | deliver s e _ ih =>
    obtain ⟨hinv, hpar⟩ := ih
    exact ⟨State.deliver_inv hinv e, (s.deliver_params e).trans hpar⟩
  | order s ports _ ih =>
    obtain ⟨hinv, hpar⟩ := ih
    exact ⟨hinv.of_block rfl rfl rfl rfl rfl hinv.statusLegal, hpar⟩
  | step s t _ hstep ih =>
    obtain ⟨hinv, hpar⟩ := ih
    exact ⟨step_inv hinv hstep, (step_params hstep).trans hpar⟩

/-! ### The live slots (R25, R27 (I6)) -/

/-- Settles O20: the CAM search for the common canId finds one entry, and it maps both slots. -/
theorem liveSlotsHoldDistinctIds : Obligations.LiveSlotsHoldDistinctIds :=
  fun _ hs _ _ hp hq hlp hlq h => hs.idsDistinct hp hq hlp hlq h

theorem State.Inv.slots_eq_map {s : State} (hs : s.Inv) :
    s.slots = (List.range s.params.capacity).map s.slot := by
  apply List.ext_getElem
  · simp [hs.slotsLength]
  · intro p hp _
    simp [State.slot_eq_getElem s p hp]

/-- The live positions in order of position are, up to order, those in ring order (I1). -/
theorem State.Inv.livePositions_perm {s : State} (hs : s.Inv) :
    ((List.range s.params.capacity).filter fun p => !(s.slot p).isSent).Perm
      ((List.range s.count.toNat).map s.ringPos) := by
  have hring : ((List.range s.count.toNat).map s.ringPos).Nodup := by
    refine List.Nodup.map_on ?_ List.nodup_range
    intro i hi j hj h
    have hcount := hs.countLe
    exact s.ringPos_inj ((List.mem_range.1 hi).trans_le hcount) ((List.mem_range.1 hj).trans_le hcount) h
  rw [List.perm_ext_iff_of_nodup (List.nodup_range.filter _) hring]
  intro p
  simp only [List.mem_filter, List.mem_range, Bool.not_eq_true', List.mem_map]
  constructor
  · rintro ⟨hp, hlive⟩
    obtain ⟨j, hj, rfl⟩ := (hs.liveIff p hp).1 hlive
    exact ⟨j, hj, rfl⟩
  · rintro ⟨j, hj, rfl⟩
    exact ⟨s.ringPos_lt hs.paramsWf.1 j, hs.ringLive hj⟩

/-- Settles O21: the live positions are a permutation of `count` ring positions. -/
theorem countIsTheNumberOfUnreadSlots : Obligations.CountIsTheNumberOfUnreadSlots := by
  intro s hs
  calc s.slots.countP (fun f => !f.isSent)
      = ((List.range s.params.capacity).filter fun p => !(s.slot p).isSent).length := by
        rw [hs.slots_eq_map, List.countP_map, List.countP_eq_length_filter]
        rfl
    _ = s.count.toNat := by simpa using hs.livePositions_perm.length_eq

/-! ### What insert and take-next leave alone -/

/-- Two states that agree on all but the slot file, the index, head, count and what is pending. -/
structure State.SameOutside (s t : State) : Prop where
  params : s.params = t.params
  sendStatus : s.sendStatus = t.sendStatus
  hostOut : s.hostOut = t.hostOut
  txOut : s.txOut = t.txOut
  rxOut : s.rxOut = t.rxOut
  lookupOut : s.lookupOut = t.lookupOut

theorem State.SameOutside.symm {s t : State} (h : s.SameOutside t) : t.SameOutside s :=
  ⟨h.params.symm, h.sendStatus.symm, h.hostOut.symm, h.txOut.symm, h.rxOut.symm, h.lookupOut.symm⟩

theorem State.SameOutside.trans {s t u : State} (h : s.SameOutside t) (h' : t.SameOutside u) : s.SameOutside u :=
  ⟨h.params.trans h'.params, h.sendStatus.trans h'.sendStatus, h.hostOut.trans h'.hostOut,
    h.txOut.trans h'.txOut, h.rxOut.trans h'.rxOut, h.lookupOut.trans h'.lookupOut⟩

theorem State.takeNext_sameOutside (s : State) : s.takeNext.1.SameOutside s := by
  obtain ⟨hparams, hstatus, _, _, _, _, _, _, hhost, htx, hrx, hlookup⟩ := s.takeNext_ports
  exact ⟨hparams, hstatus, hhost, htx, hrx, hlookup⟩

theorem State.insert_sameOutside (s : State) (r : RxOperands) : (s.insert r).1.SameOutside s := by
  obtain ⟨hparams, hstatus, _, _, _, _, _, _, hhost, htx, hrx, hlookup⟩ := s.insert_ports r
  exact ⟨hparams, hstatus, hhost, htx, hrx, hlookup⟩

/-! ### Which commands write the block's state (R28, R55) -/

/-- Settles O50, case by case on what a command can do. -/
theorem onlyInsertAndTakeNextChangeTheBuffer : Obligations.OnlyInsertAndTakeNextChangeTheBuffer := by
  intro i s t h
  rcases exec_next_cases h with
    ⟨_, a, rfl⟩ | ⟨payload, rfl, _, rfl⟩ | ⟨n, rfl, rfl⟩ | ⟨r, rfl, rfl⟩ | ⟨id, _, rfl⟩
  · exact ⟨fun _ _ => ⟨rfl, rfl, rfl, rfl⟩, fun _ => rfl⟩
  · refine ⟨fun _ _ => ?_, fun hne => absurd rfl (hne payload)⟩
    rcases s.sendFrame_cases payload with ⟨f, _, hsend⟩ | ⟨k, _, hsend⟩ <;> rw [hsend] <;>
      exact ⟨rfl, rfl, rfl, rfl⟩
  · exact ⟨fun _ hne => absurd rfl (hne n), fun _ => s.takeNext_sameOutside.sendStatus⟩
  · exact ⟨fun hne _ => absurd rfl (hne r), fun _ => (s.insert_sameOutside r).sendStatus⟩
  · exact ⟨fun _ _ => ⟨rfl, rfl, rfl, rfl⟩, fun _ => rfl⟩

/-! ### The block as the list of its unread frames (R31) -/

/-- Take-next on the list of unread frames (R136). -/
def fifoTake : List Frame → List Frame × Except ErrorKind Frame
  | [] => ([], .error .notReady)
  | f :: q => (q, .ok f)

theorem State.takeNext_unread {s : State} (hs : s.Inv) :
    (s.takeNext.1.unread, s.takeNext.2) = fifoTake s.unread := by
  by_cases hc : s.count = 0
  · rw [State.takeNext_empty hc, s.unread_eq_nil_iff.2 hc]
    rfl
  · rw [State.takeNext_taken hc, State.unread_head hs hc]
    rfl

theorem State.ofNat_unread_length (s : State) : BitVec.ofNat 8 s.unread.length = s.count := by
  rw [s.unread_length, BitVec.ofNat_toNat, BitVec.setWidth_eq]

/-- An unread frame has bytes: its dataLength is legal (I5). -/
theorem State.Inv.encodeFrame_unread {s : State} (hs : s.Inv) {f : Frame} (hf : f ∈ s.unread) :
    ∃ e, encodeFrame s.params.rev (wireOf f) = .ok e := by
  obtain ⟨p, hp, hlive, rfl⟩ := (State.mem_unread_iff hs f).1 hf
  obtain ⟨_, hlength, _⟩ := hs.liveStorable p hp hlive
  exact encodeFrame_ok hlength

/-- Settles O33: insert on the ring and the CAM is `fifoRx` on the list, outcome included. -/
theorem rxRefinesTheUnreadList : Obligations.RxRefinesTheUnreadList := by
  intro s r hs
  have hfifo := State.insert_unread hs r
  refine ⟨_, rfl, congrArg Prod.fst hfifo, ?_⟩
  rw [← hfifo, State.driveRx_rxOut, (s.insert_sameOutside r).rxOut]

/-- RD_RECEIVE_FRAME on the list: `fifoTake`, and the answer to what it returned (R166). -/
theorem exec_rdReceiveFrame_unread {s : State} (hs : s.Inv) (n : Nat) :
    ∃ t, exec (.rdReceiveFrame n) s = .next t ∧ t.unread = (fifoTake s.unread).1 ∧
      t.hostOut =
        s.hostOut ++ [⟨true, some (fit (receiveResponse s.params.rev (fifoTake s.unread).2) n)⟩] := by
  rw [← State.takeNext_unread hs, ← s.takeNext_sameOutside.hostOut]
  exact ⟨_, rfl, rfl, rfl⟩

/-- Settles O34: one reading of each command on the list of unread frames. -/
theorem readsRefineTheUnreadList : Obligations.ReadsRefineTheUnreadList := by
  intro s hs
  refine ⟨fun n hnil => ?_, fun n f q hcons => ?_, fun n => ?_, fun id => ?_⟩
  · obtain ⟨t, hexec, hunread, hhost⟩ := exec_rdReceiveFrame_unread hs n
    rw [hnil] at hunread hhost
    exact ⟨t, hexec, hunread, hhost⟩
  · obtain ⟨t, hexec, hunread, hhost⟩ := exec_rdReceiveFrame_unread hs n
    obtain ⟨e, he⟩ := hs.encodeFrame_unread (f := f) (by simp [hcons])
    rw [hcons] at hunread hhost
    refine ⟨t, e, hexec, hunread, he, ?_⟩
    simpa only [fifoTake, receiveResponse, he] using hhost
  · rw [s.ofNat_unread_length]
    exact ⟨_, rfl, rfl, rfl⟩
  · rw [← State.lookupFrame_unread hs]
    exact ⟨_, rfl, rfl, rfl⟩

/-! ### Slot positions and entry numbers are not observable (R31) -/

/-- The answer of a command that only answers the host port: of the block it shows `count` and SEND_STATUS
alone (R160 to R193). -/
def hostOnlyAnswer (count : Byte) (status : Word) : Instr → HostAnswer
  | .rdFramesCount n => ⟨true, some (fit [count] n)⟩
  | .rdSendStatus n => ⟨true, some (fit (wordBytes status) n)⟩
  | .wrFramesCount _ | .wrReceiveFrame _ => ⟨true, none⟩
  | _ => ⟨false, none⟩

theorem exec_hostOnly {i : Instr} {s : State} (hi : answersHostOnly i = true) (hwf : i.wf s.params.rev = true) :
    exec i s = .next (s.answerHost (hostOnlyAnswer s.count s.sendStatus i)) := by
  cases i with
  | wrSendFrame | rdReceiveFrame | rxFrame | lookup => cases hi
  | rdSendStatus n =>
    have hr : s.params.rev = .rev2 := by simpa [Instr.wf] using hwf
    simp only [exec, execRdSendStatus, hr]
    rfl
  | rdUnclaimed30 | wrUnclaimed30 =>
    have hr : s.params.rev = .rev1 := by simpa [Instr.wf] using hwf
    simp only [exec, execRdUnclaimed30, execWrUnclaimed30, hr]
    rfl
  | rdUnclaimed addr | wrUnclaimed addr =>
    have hn : ¬ named addr = true := by simpa [Instr.wf] using hwf
    simp only [exec, execRdUnclaimed, execWrUnclaimed, if_neg hn]
    rfl
  | _ => rfl

/-- Two states that no port can tell apart (R31): where their buffers differ, it is in slot positions and entry
numbers, not in the unread frames or their order. -/
structure State.Alike (s t : State) : Prop extends s.SameOutside t where
  unread : s.unread = t.unread

namespace State.Alike

variable {s t : State}

theorem count (h : s.Alike t) : s.count = t.count := by
  rw [← s.ofNat_unread_length, h.unread, t.ofNat_unread_length]

theorem answerHost (h : s.Alike t) (a : HostAnswer) : (s.answerHost a).Alike (t.answerHost a) :=
  { h with hostOut := congrArg (· ++ [a]) h.hostOut }

theorem driveRx (h : s.Alike t) (o : RxOutcome) : (s.driveRx o).Alike (t.driveRx o) :=
  { h with rxOut := congrArg (· ++ [rxCode o]) h.rxOut }

theorem answerLookup (h : s.Alike t) (a : Option Frame) : (s.answerLookup a).Alike (t.answerLookup a) :=
  { h with lookupOut := congrArg (· ++ [a]) h.lookupOut }

theorem setSendStatus (h : s.Alike t) (w : Word) : (s.setSendStatus w).Alike (t.setSendStatus w) :=
  { h with sendStatus := rfl }

theorem emitTx (h : s.Alike t) (f : WireFrame) : (s.emitTx f).Alike (t.emitTx f) :=
  { h with txOut := by simp [h.txOut] }

theorem sendFrame (h : s.Alike t) (payload : List Byte) : (s.sendFrame payload).Alike (t.sendFrame payload) := by
  unfold State.sendFrame
  cases decodeR2 payload with
  | ok f => exact (h.setSendStatus sendOk).emitTx f
  | error k => exact h.setSendStatus respRejected

theorem takeNext (h : s.Alike t) (hs : s.Inv) (ht : t.Inv) :
    s.takeNext.1.Alike t.takeNext.1 ∧ s.takeNext.2 = t.takeNext.2 := by
  have hfifo : (s.takeNext.1.unread, s.takeNext.2) = (t.takeNext.1.unread, t.takeNext.2) := by
    rw [State.takeNext_unread hs, State.takeNext_unread ht, h.unread]
  obtain ⟨hunread, hresult⟩ := Prod.mk.inj hfifo
  have houtside := (s.takeNext_sameOutside.trans h.toSameOutside).trans t.takeNext_sameOutside.symm
  exact ⟨⟨houtside, hunread⟩, hresult⟩

theorem insert (h : s.Alike t) (hs : s.Inv) (ht : t.Inv) (r : RxOperands) :
    (s.insert r).1.Alike (t.insert r).1 ∧ (s.insert r).2 = (t.insert r).2 := by
  have hfifo : ((s.insert r).1.unread, (s.insert r).2) = ((t.insert r).1.unread, (t.insert r).2) := by
    rw [State.insert_unread hs, State.insert_unread ht, h.params, h.unread]
  obtain ⟨hunread, hresult⟩ := Prod.mk.inj hfifo
  have houtside := ((s.insert_sameOutside r).trans h.toSameOutside).trans (t.insert_sameOutside r).symm
  exact ⟨⟨houtside, hunread⟩, hresult⟩

theorem lookupFrame (h : s.Alike t) (hs : s.Inv) (ht : t.Inv) (id : Word) :
    s.lookupFrame id = t.lookupFrame id := by
  rw [State.lookupFrame_unread hs, State.lookupFrame_unread ht, h.unread]

end State.Alike

/-- One command keeps two states alike: it answers the same in both. -/
theorem exec_alike {i : Instr} {s t : State} (hs : s.Inv) (ht : t.Inv) (hwf : i.wf s.params.rev = true)
    (h : s.Alike t) : ∃ s' t', exec i s = .next s' ∧ exec i t = .next t' ∧ s'.Alike t' := by
  by_cases hi : answersHostOnly i = true
  · refine ⟨_, _, exec_hostOnly hi hwf, exec_hostOnly hi (h.params ▸ hwf), ?_⟩
    rw [h.count, h.sendStatus]
    exact h.answerHost _
  · cases i with
    | wrSendFrame payload =>
      have hr : s.params.rev = .rev2 := by simpa [Instr.wf] using hwf
      have hr' : t.params.rev = .rev2 := h.params ▸ hr
      simp only [exec, execWrSendFrame, hr, hr']
      exact ⟨_, _, rfl, rfl, (h.sendFrame payload).answerHost _⟩
    | rdReceiveFrame n =>
      obtain ⟨hbuf, hresult⟩ := h.takeNext hs ht
      refine ⟨_, _, rfl, rfl, ?_⟩
      rw [h.params, hresult]
      exact hbuf.answerHost _
    | rxFrame r =>
      obtain ⟨hbuf, hresult⟩ := h.insert hs ht r
      refine ⟨_, _, rfl, rfl, ?_⟩
      rw [hresult]
      exact hbuf.driveRx _
    | lookup id =>
      refine ⟨_, _, rfl, rfl, ?_⟩
      rw [h.lookupFrame hs ht]
      exact h.answerLookup _
    | _ => exact absurd rfl hi

theorem execAll_alike {is : List Instr} {s t : State} (hs : s.Inv) (ht : t.Inv)
    (hwf : ∀ i ∈ is, i.wf s.params.rev = true) (h : s.Alike t) :
    ∃ s' t', execAll is s = .next s' ∧ execAll is t = .next t' ∧ s'.Alike t' := by
  induction is generalizing s t with
  | nil => exact ⟨s, t, rfl, rfl, h⟩
  | cons i is ih =>
    obtain ⟨hi, hrest⟩ := List.forall_mem_cons.1 hwf
    obtain ⟨u, v, hu, hv, huv⟩ := exec_alike hs ht hi h
    rw [← exec_params hu] at hrest
    simpa only [execAll, hu, hv] using ih (exec_inv hs hu) (exec_inv ht hv) hrest huv

/-- Settles O35, by induction on the commands: being alike is kept by each of them. -/
theorem positionsAreNotObservable : Obligations.PositionsAreNotObservable := by
  intro is s t hs ht hwf hparams hunread hstatus hhost htx hrx hlookup
  obtain ⟨s', t', hexec, hexec', h⟩ :=
    execAll_alike hs ht hwf ⟨⟨hparams, hstatus, hhost, htx, hrx, hlookup⟩, hunread⟩
  exact ⟨s', t', hexec, hexec', h.unread, h.sendStatus, h.hostOut, h.txOut, h.rxOut, h.lookupOut⟩

end Sys2Proof.Machine
end

section
/-!
PROOFS of the family `20_memory.md`. What a run does to the pending events: a run of steps is one list of events
applied one at a time, that keeps each port's order (R56); every interleaving can happen; and in a fair run each
delivery is applied (R58, R262).
-/

namespace Sys2Proof.Machine

/-! ### The events of one port, and what a run leaves pending -/

/-- The events of a list that one port delivers, in their order: what `State.queue` is of the pending events. -/
def portEvents : Port → List Event → List Event
  | .host, es => (hostEvents es).map .host
  | .receive, es => (rxEvents es).map .rx
  | .lookup, es => (lookupEvents es).map .lookup
  | .reset, es => List.replicate (resetEvents es) .reset

@[simp] theorem portEvents_nil (port : Port) : portEvents port [] = [] := by
  cases port <;> rfl

theorem portEvents_cons (port : Port) (e : Event) (es : List Event) :
    portEvents port (e :: es) = if port = eventPort e then e :: portEvents port es else portEvents port es := by
  cases e <;> cases port <;>
    simp [portEvents, hostEvents, rxEvents, lookupEvents, resetEvents, eventPort, List.replicate_succ]

/-- Each event of a list is of one of the four ports. -/
theorem length_eq_sum_portEvents (es : List Event) :
    es.length = (portEvents .host es).length + (portEvents .receive es).length +
      (portEvents .lookup es).length + (portEvents .reset es).length := by
  induction es with
  | nil => rfl
  | cons e es ih => cases e <;> simp [portEvents_cons, eventPort, ih] <;> omega

/-- At each port, the events of `es` are the front part of what is pending in `s`, and what is pending in `t` is
the rest. -/
def State.PendingAfter (s : State) (es : List Event) (t : State) : Prop :=
  ∀ port, s.queue port = portEvents port es ++ t.queue port

theorem State.pendingAfter_iff (s : State) (es : List Event) (t : State) :
    s.PendingAfter es t ↔
      hostEvents es ++ t.hostIn = s.hostIn ∧ rxEvents es ++ t.rxIn = s.rxIn ∧
      lookupEvents es ++ t.lookupIn = s.lookupIn ∧ resetEvents es + t.resetIn = s.resetIn := by
  have hhost : Function.Injective Event.host := fun _ _ => Event.host.inj
  have hrx : Function.Injective Event.rx := fun _ _ => Event.rx.inj
  have hlookup : Function.Injective Event.lookup := fun _ _ => Event.lookup.inj
  constructor
  · intro h
    refine ⟨hhost.list_map ?_, hrx.list_map ?_, hlookup.list_map ?_, ?_⟩
    · simpa [State.queue, portEvents] using (h .host).symm
    · simpa [State.queue, portEvents] using (h .receive).symm
    · simpa [State.queue, portEvents] using (h .lookup).symm
    · simpa [State.queue, portEvents] using (congrArg List.length (h .reset)).symm
  · rintro ⟨h1, h2, h3, h4⟩ port
    cases port
    · simp [State.queue, portEvents, ← h1]
    · simp [State.queue, portEvents, ← h2]
    · simp [State.queue, portEvents, ← h3]
    · simp [State.queue, portEvents, ← h4]

theorem State.PendingAfter.nil (s : State) : s.PendingAfter [] s := fun port => by
  rw [portEvents_nil, List.nil_append]

theorem State.PendingAfter.cons {s t u : State} {e : Event} {es : List Event} (h : s.PendingAfter [e] t)
    (h' : t.PendingAfter es u) : s.PendingAfter (e :: es) u := by
  intro port
  rw [h port, h' port, portEvents_cons, portEvents_cons, portEvents_nil]
  split <;> rfl

theorem State.pendingCount_eq (s : State) :
    s.pendingCount = (s.queue .host).length + (s.queue .receive).length + (s.queue .lookup).length +
      (s.queue .reset).length := by
  simp only [State.queue_length]
  rfl

theorem State.pendingCount_eq_zero_iff (s : State) : s.pendingCount = 0 ↔ ∀ port, s.queue port = [] := by
  rw [State.pendingCount_eq]
  constructor
  · intro h port
    apply List.eq_nil_of_length_eq_zero
    cases port <;> omega
  · intro h
    simp [h]

theorem State.PendingAfter.pendingCount {s t : State} {es : List Event} (h : s.PendingAfter es t) :
    s.pendingCount = es.length + t.pendingCount := by
  rw [State.pendingCount_eq, State.pendingCount_eq, length_eq_sum_portEvents es]
  simp only [h _, List.length_append]
  omega

/-! ### What one step does to the pending events, the arbitration and the block -/

theorem State.fetch_withoutPending {s u : State} {e : Event} (h : s.fetch = some (e, u)) :
    u.withoutPending = s.withoutPending := by
  rcases State.fetch_cases h with ⟨_, _, _, _, rfl⟩ | ⟨_, _, _, _, rfl⟩ | ⟨_, _, _, _, rfl⟩ | ⟨_, _, _, rfl⟩ <;>
    rfl

theorem State.fetch_schedule {s u : State} {e : Event} (h : s.fetch = some (e, u)) :
    u.schedule = s.schedule.tail := by
  rcases State.fetch_cases h with ⟨_, _, _, _, rfl⟩ | ⟨_, _, _, _, rfl⟩ | ⟨_, _, _, _, rfl⟩ | ⟨_, _, _, rfl⟩ <;>
    rfl

theorem State.fetch_pendingAfter {s u : State} {e : Event} (h : s.fetch = some (e, u)) : s.PendingAfter [e] u := by
  rw [State.pendingAfter_iff]
  rcases State.fetch_cases h with ⟨_, _, rfl, hq, rfl⟩ | ⟨_, _, rfl, hq, rfl⟩ | ⟨_, _, rfl, hq, rfl⟩ |
      ⟨k, rfl, hq, rfl⟩
  · exact ⟨hq.symm, rfl, rfl, Nat.zero_add _⟩
  · exact ⟨rfl, hq.symm, rfl, Nat.zero_add _⟩
  · exact ⟨rfl, rfl, hq.symm, Nat.zero_add _⟩
  · exact ⟨rfl, rfl, rfl, (Nat.add_comm 1 k).trans hq.symm⟩

/-- Settles O53: what `State.fetch` takes, and when it takes nothing. -/
theorem nextEventIsTheOldestOfItsPort : Obligations.NextEventIsTheOldestOfItsPort := by
  refine ⟨fun s u e h => ?_, State.fetch_none_iff⟩
  obtain ⟨hhost, hrx, hlookup, hreset⟩ := (s.pendingAfter_iff [e] u).1 (State.fetch_pendingAfter h)
  exact ⟨hhost, hrx, hlookup, hreset, State.fetch_withoutPending h⟩

/-- An event applied reads nothing of what is pending. -/
theorem applyEvent_withoutPending {e : Event} {s t : State} (h : applyEvent e s = .next t) :
    applyEvent e s.withoutPending = .next t.withoutPending := by
  cases hc : eventCommand e with
  | none =>
    simp only [applyEvent, hc] at h ⊢
    cases h
    rfl
  | some c =>
    simp only [applyEvent, hc, runCommand, State.withoutPending_params] at h ⊢
    cases hd : decode s.params.rev c.1 c.2 with
    | ok i =>
      rw [hd] at h
      exact exec_withoutPending h
    | error err =>
      rw [hd] at h
      cases h

/-- No command writes the arbitration order. -/
theorem exec_schedule {i : Instr} {s t : State} (h : exec i s = .next t) : t.schedule = s.schedule := by
  rcases exec_next_cases h with ⟨_, a, rfl⟩ | ⟨p, _, _, rfl⟩ | ⟨n, _, rfl⟩ | ⟨r, _, rfl⟩ | ⟨c, _, rfl⟩
  · rfl
  · rcases s.sendFrame_cases p with ⟨f, _, he⟩ | ⟨k, _, he⟩ <;> rw [he] <;> rfl
  · obtain ⟨_, _, _, _, _, _, hsched, _⟩ := s.takeNext_ports
    exact hsched
  · obtain ⟨_, _, _, _, _, _, hsched, _⟩ := s.insert_ports r
    exact hsched
  · rfl

theorem applyEvent_schedule {e : Event} {s t : State} (h : applyEvent e s = .next t) :
    t.schedule = s.schedule := by
  rcases applyEvent_cases e s with ⟨_, he⟩ | ⟨i, _, _, he⟩ <;> rw [he] at h
  · cases h; rfl
  · exact exec_schedule h

/-- The step that applies the event `State.fetch` takes, seen without the pending events: it applies that event to
the block, which leaves its queue, and uses up one turn of the arbitration order. -/
theorem State.fetch_applied {s u t : State} {e : Event} (hf : s.fetch = some (e, u))
    (ha : applyEvent e u = .next t) :
    s.PendingAfter [e] t ∧ applyEvent e s.withoutPending = .next t.withoutPending ∧
      t.schedule = s.schedule.tail := by
  refine ⟨fun port => ?_, ?_, ?_⟩
  · rw [State.fetch_pendingAfter hf port, applyEvent_queue ha port]
  · rw [← State.fetch_withoutPending hf]
    exact applyEvent_withoutPending ha
  · rw [applyEvent_schedule ha, State.fetch_schedule hf]

/-- What one step does: nothing, with no event pending; otherwise it applies one event. -/
theorem step_applies {s t : State} (h : step s = .next t) :
    (s.pendingCount = 0 ∧ t = s) ∨
    ∃ e, s.PendingAfter [e] t ∧ applyEvent e s.withoutPending = .next t.withoutPending := by
  rcases step_cases s with ⟨hf, he⟩ | ⟨e, u, hf, he⟩ <;> rw [he] at h
  · cases h
    exact .inl ⟨(State.fetch_none_iff s).1 hf, rfl⟩
  · obtain ⟨hpend, happ, _⟩ := State.fetch_applied hf h
    exact .inr ⟨e, hpend, happ⟩

/-! ### Runs of several steps -/

theorem run_succ_iff (n : Nat) (s t : State) :
    Host.Core.run Sys2Proof.core (n + 1) s = .next t ↔
      ∃ u, step s = .next u ∧ Host.Core.run Sys2Proof.core n u = .next t := by
  obtain ⟨u, hu⟩ := applyMove_completes .step s
  have hstep : step s = .next u := hu
  have hrun : Host.Core.run Sys2Proof.core (n + 1) s = Host.Core.run Sys2Proof.core n u := by
    have hcore : Sys2Proof.core.step s = .next u := hu
    simp only [Host.Core.run, hcore]
  rw [hrun]
  simp only [hstep, Host.Outcome.next.injEq, exists_eq_left']

theorem applyAll_cons {e : Event} {es : List Event} {s u : State} (h : applyEvent e s = .next u) :
    applyAll (e :: es) s = applyAll es u := by
  simp only [applyAll, h]

/-- A run of steps applies one list of events, one at a time: each step applies the oldest event of one port, or
none. -/
theorem run_applies {n : Nat} {s t : State} (h : Host.Core.run Sys2Proof.core n s = .next t) :
    ∃ es : List Event, es.length ≤ n ∧ applyAll es s.withoutPending = .next t.withoutPending ∧
      s.PendingAfter es t := by
  induction n generalizing s with
  | zero =>
    cases h
    exact ⟨[], Nat.le_refl 0, rfl, .nil _⟩
  | succ n ih =>
    obtain ⟨u, hstep, hrest⟩ := (run_succ_iff n s t).1 h
    obtain ⟨es, hlen, happ, hpend⟩ := ih hrest
    rcases step_applies hstep with ⟨_, rfl⟩ | ⟨e, hpend₁, happ₁⟩
    · exact ⟨es, Nat.le_succ_of_le hlen, happ, hpend⟩
    · exact ⟨e :: es, Nat.succ_le_succ hlen, (applyAll_cons happ₁).trans happ, hpend₁.cons hpend⟩

/-- Settles O55, by induction on the steps (`run_applies`). -/
theorem runsAreInterleavingsOfThePorts : Obligations.RunsAreInterleavingsOfThePorts := by
  intro n s t h
  obtain ⟨es, hlen, happ, hpend⟩ := run_applies h
  exact ⟨es, hlen, ⟨_, happ, rfl⟩, (s.pendingAfter_iff es t).1 hpend⟩

/-- Settles O57, by induction on the number of pending events: each step applies one. -/
theorem pendingEventsAreAllApplied : Obligations.PendingEventsAreAllApplied := by
  intro s
  induction hn : s.pendingCount generalizing s with
  | zero => exact ⟨s, rfl, hn⟩
  | succ n ih =>
    obtain ⟨u, hstep⟩ : ∃ u, step s = .next u := applyMove_completes .step s
    have hu : u.pendingCount = n := by
      rcases step_applies hstep with ⟨hzero, _⟩ | ⟨e, hpend, _⟩
      · omega
      · have hcount := hpend.pendingCount
        rw [List.length_singleton] at hcount
        omega
    obtain ⟨t, hrun, ht⟩ := ih u hu
    exact ⟨t, (run_succ_iff n s t).2 ⟨u, hstep, hrun⟩, ht⟩

/-! ### Every interleaving -/

theorem State.deliverAll_queue (s : State) (es : List Event) (port : Port) :
    (s.deliverAll es).queue port = s.queue port ++ portEvents port es := by
  induction es generalizing s with
  | nil => simp [State.deliverAll]
  | cons e es ih =>
    have h : s.deliverAll (e :: es) = (s.deliver e).deliverAll es := rfl
    rw [h, ih, State.deliver_queue, portEvents_cons]
    split <;> simp

theorem State.deliver_withoutPending (s : State) (e : Event) :
    (s.deliver e).withoutPending = s.withoutPending := by
  cases e <;> rfl

theorem State.deliverAll_withoutPending (s : State) (es : List Event) :
    (s.deliverAll es).withoutPending = s.withoutPending := by
  induction es generalizing s with
  | nil => rfl
  | cons e es ih => exact (ih (s.deliver e)).trans (s.deliver_withoutPending e)

/-- Where the arbitration order names a port with an event pending, the step applies that port's oldest event. -/
theorem step_of_scheduled {s : State} {e : Event} {rest : List Event} {ports : List Port}
    (hs : s.schedule = eventPort e :: ports) (hq : s.queue (eventPort e) = e :: rest) :
    ∃ t, step s = .next t ∧ s.PendingAfter [e] t ∧
      applyEvent e s.withoutPending = .next t.withoutPending ∧ t.schedule = ports := by
  have hready : s.portReady (eventPort e) = true := by
    rw [State.portReady_iff, ← State.queue_length, hq]
    exact Nat.succ_pos _
  have hnext := State.nextPort_scheduled hready hs
  obtain ⟨t, hstep⟩ : ∃ t, step s = .next t := applyMove_completes .step s
  rcases step_queue hstep with ⟨hnone, _⟩ | ⟨p, e', u, hp, hf, ha, hqueues⟩
  · rw [hnext] at hnone; cases hnone
  · obtain rfl : eventPort e = p := Option.some.inj (hnext.symm.trans hp)
    obtain rfl : e = e' := by
      have h := hqueues (eventPort e)
      rw [hq, if_pos rfl] at h
      exact (List.cons.inj h).1
    obtain ⟨hpend, happ, hsched⟩ := State.fetch_applied hf ha
    exact ⟨t, hstep, hpend, happ, by rw [hsched, hs]; rfl⟩

/-- An arbitration order that names the ports of `es`, the only events pending, applies them in their order. -/
theorem run_scheduled (es : List Event) {s : State} (hs : s.schedule = es.map eventPort)
    (hq : ∀ port, s.queue port = portEvents port es) :
    ∃ t, Host.Core.run Sys2Proof.core es.length s = .next t ∧ t.pendingCount = 0 ∧
      applyAll es s.withoutPending = .next t.withoutPending := by
  induction es generalizing s with
  | nil => exact ⟨s, rfl, s.pendingCount_eq_zero_iff.2 fun port => (hq port).trans (portEvents_nil port), rfl⟩
  | cons e es ih =>
    have hhead : s.queue (eventPort e) = e :: portEvents (eventPort e) es := by
      rw [hq, portEvents_cons, if_pos rfl]
    obtain ⟨u, hstep, hpend, happ, hsched⟩ := step_of_scheduled hs hhead
    have hrest : ∀ port, u.queue port = portEvents port es := by
      intro port
      have h := (hpend port).symm.trans (hq port)
      rw [portEvents_cons, portEvents_cons, portEvents_nil] at h
      split at h
      · exact (List.cons.inj h).2
      · exact h
    obtain ⟨t, hrun, ht, hall⟩ := ih hsched hrest
    exact ⟨t, (run_succ_iff _ s t).2 ⟨u, hstep, hrun⟩, ht, (applyAll_cons happ).trans hall⟩

/-- Settles O56: the delivered events are the only ones pending, and the order names their ports. -/
theorem everyInterleavingCanHappen : Obligations.EveryInterleavingCanHappen := by
  intro s es hs
  rw [← s.deliverAll_withoutPending es]
  refine run_scheduled (s := { s.deliverAll es with schedule := es.map eventPort }) es rfl fun port => ?_
  have hqueue : ({ s.deliverAll es with schedule := es.map eventPort } : State).queue port =
      (s.deliverAll es).queue port := by
    cases port <;> rfl
  rw [hqueue, State.deliverAll_queue, s.pendingCount_eq_zero_iff.1 hs, List.nil_append]

/-! ### Fair runs apply every delivery (R58, R262) -/

section
variable {p : Params} {moves : Nat → Move} {states : Nat → State}

theorem servedCount_one (port : Port) (n : Nat) :
    servedCount moves states port n 1 = if servesAt moves states port n = true then 1 else 0 := by
  simp [servedCount, List.range_one]

/-- Until a port is served, its queue keeps everything in it, in its place. -/
theorem IsRun.queue_of_unserved (h : IsRun p moves states) {port : Port} (m k : Nat)
    (hk : ∀ i, i < k → servesAt moves states port (m + i) = false) :
    ∃ more, (states (m + k)).queue port = (states m).queue port ++ more := by
  induction k with
  | zero => exact ⟨[], by simp⟩
  | succ k ih =>
    obtain ⟨more, hmore⟩ := ih fun i hi => hk i (Nat.lt_succ_of_lt hi)
    obtain ⟨more', hmore'⟩ := h.queue_of_not_serves (hk k (Nat.lt_succ_self k))
    exact ⟨more ++ more', by rw [← Nat.add_assoc, hmore', hmore, List.append_assoc]⟩

/-- In a fair run a port with an event pending is served: if it were not, it would have one pending for ever. -/
theorem WeaklyFair.served (hfair : WeaklyFair moves states) (h : IsRun p moves states) {port : Port} {m : Nat}
    (hq : (states m).queue port ≠ []) : ∃ k, servesAt moves states port (m + k) = true := by
  by_contra hnever
  simp only [not_exists, Bool.not_eq_true] at hnever
  have hready : ∀ m', m ≤ m' → (states m').portReady port = true := by
    intro m' hm
    obtain ⟨k, rfl⟩ := Nat.exists_eq_add_of_le hm
    obtain ⟨more, hmore⟩ := h.queue_of_unserved m k fun i _ => hnever i
    rw [State.portReady_iff, ← State.queue_length, hmore, List.length_pos_iff]
    simp [hq]
  obtain ⟨m', hm, hserved⟩ := hfair port m hready
  obtain ⟨k, rfl⟩ := Nat.exists_eq_add_of_le hm
  rw [hnever k] at hserved
  cases hserved

/-- In a fair run a port with an event pending has a first move that serves it. That move applies the oldest event
and leaves the others pending, in their order. -/
theorem WeaklyFair.first_served (hfair : WeaklyFair moves states) (h : IsRun p moves states) {port : Port}
    {m : Nat} {a : Event} {rest : List Event} (hq : (states m).queue port = a :: rest) :
    ∃ k u more, moves (m + k) = .step ∧ (states (m + k)).fetch = some (a, u) ∧
      applyEvent a u = .next (states (m + k + 1)) ∧ servedCount moves states port m k = 0 ∧
      servedCount moves states port m (k + 1) = 1 ∧ (states (m + k + 1)).queue port = rest ++ more := by
  have hex := hfair.served h (m := m) (port := port) (by rw [hq]; exact List.cons_ne_nil _ _)
  have hserves := Nat.find_spec hex
  have hbefore : ∀ i, i < Nat.find hex → servesAt moves states port (m + i) = false := fun i hi =>
    Bool.eq_false_iff.2 (Nat.find_min hex hi)
  obtain ⟨more, hmore⟩ := h.queue_of_unserved m _ hbefore
  obtain ⟨e, u, hstep, hf, ha, hqueue⟩ := h.queue_of_serves hserves
  rw [hmore, hq, List.cons_append] at hqueue
  obtain ⟨rfl, hrest⟩ := List.cons.inj hqueue
  have hzero : servedCount moves states port m (Nat.find hex) = 0 := by
    simpa [servedCount, List.countP_eq_zero] using hbefore
  refine ⟨_, u, more, hstep, hf, ha, hzero, ?_, hrest.symm⟩
  rw [servedCount_add, hzero, servedCount_one, if_pos hserves]

/-- In a fair run an event pending at a port is applied, after exactly the events pending before it there. -/
theorem WeaklyFair.applied (hfair : WeaklyFair moves states) (h : IsRun p moves states) {port : Port} {e : Event}
    {post : List Event} (pre : List Event) {m : Nat} (hq : (states m).queue port = pre ++ e :: post) :
    ∃ k u, moves (m + k) = .step ∧ (states (m + k)).fetch = some (e, u) ∧
      applyEvent e u = .next (states (m + k + 1)) ∧ servedCount moves states port m k = pre.length := by
  induction pre generalizing m post with
  | nil =>
    obtain ⟨k, u, _, hstep, hf, ha, hzero, _, _⟩ := hfair.first_served h hq
    exact ⟨k, u, hstep, hf, ha, hzero⟩
  | cons a pre ih =>
    rw [List.cons_append] at hq
    obtain ⟨k, _, more, _, _, _, _, hone, hrest⟩ := hfair.first_served h hq
    rw [List.append_assoc, List.cons_append] at hrest
    obtain ⟨l, u, hstep, hf, ha, hcount⟩ := ih hrest
    have hmove : m + (k + 1 + l) = m + k + 1 + l := by omega
    refine ⟨k + 1 + l, u, ?_, ?_, ?_, ?_⟩
    · rwa [hmove]
    · rwa [hmove]
    · rwa [hmove]
    · rw [servedCount_add, hone, ← Nat.add_assoc, hcount, List.length_cons, Nat.add_comm]

end

/-- Settles O58: the delivery stands behind what its port had pending, and a fair run applies it after that. -/
theorem deliveredCommandsAreEventuallyApplied : Obligations.DeliveredCommandsAreEventuallyApplied := by
  intro p moves states h hfair n e hm
  have hq : (states (n + 1)).queue (eventPort e) = (states n).queue (eventPort e) ++ e :: [] := by
    rw [h.after_deliver hm, State.deliver_queue, if_pos rfl]
  rw [← State.queue_length]
  exact hfair.applied h _ hq

/-! ### Fair runs exist -/

/-- The ports in turn. -/
def portInTurn (k : Nat) : Port := [Port.host, .receive, .lookup, .reset].getD (k % 4) .host

/-- Each port's turn comes at or after every moment. -/
theorem exists_portInTurn (port : Port) (m : Nat) : ∃ k, m ≤ k ∧ portInTurn k = port := by
  have hturn : ∀ r, r < 4 → portInTurn (4 * m + r) = portInTurn r := fun r hr => by
    rw [portInTurn, portInTurn, Nat.mul_add_mod]
  cases port
  · exact ⟨4 * m + 0, by omega, hturn 0 (by decide)⟩
  · exact ⟨4 * m + 1, by omega, hturn 1 (by decide)⟩
  · exact ⟨4 * m + 2, by omega, hturn 2 (by decide)⟩
  · exact ⟨4 * m + 3, by omega, hturn 3 (by decide)⟩

/-- The `n` moves of `begun`, and then for ever: the next delivery of `ds`, an arbitration order that names the port
whose turn it is, and a step. -/
def movesInTurn (begun : Nat → Move) (n : Nat) (ds : Nat → Event) (i : Nat) : Move :=
  if i < n then begun i
  else
    match (i - n) % 3 with
    | 0 => .deliver (ds ((i - n) / 3))
    | 1 => .order [portInTurn ((i - n) / 3)]
    | _ => .step

theorem movesInTurn_begun (begun : Nat → Move) {n : Nat} (ds : Nat → Event) {i : Nat} (hi : i < n) :
    movesInTurn begun n ds i = begun i := if_pos hi

theorem movesInTurn_deliver (begun : Nat → Move) (n : Nat) (ds : Nat → Event) (k : Nat) :
    movesInTurn begun n ds (n + 3 * k) = .deliver (ds k) := by
  simp [movesInTurn]

theorem movesInTurn_order (begun : Nat → Move) (n : Nat) (ds : Nat → Event) (k : Nat) :
    movesInTurn begun n ds (n + 3 * k + 1) = .order [portInTurn k] := by
  have hmod : (n + 3 * k + 1 - n) % 3 = 1 := by omega
  have hdiv : (n + 3 * k + 1 - n) / 3 = k := by omega
  rw [movesInTurn, if_neg (by omega), hmod, hdiv]
  rfl

theorem movesInTurn_step (begun : Nat → Move) (n : Nat) (ds : Nat → Event) (k : Nat) :
    movesInTurn begun n ds (n + 3 * k + 2) = .step := by
  have hmod : (n + 3 * k + 2 - n) % 3 = 2 := by omega
  rw [movesInTurn, if_neg (by omega), hmod]
  rfl

/-- A step right after an order that names a port with an event pending serves that port. -/
theorem IsRun.serves_ordered {p : Params} {moves : Nat → Move} {states : Nat → State} (h : IsRun p moves states)
    {port : Port} {i : Nat} (horder : moves i = .order [port]) (hstep : moves (i + 1) = .step)
    (hready : (states (i + 1)).portReady port = true) : servesAt moves states port (i + 1) = true := by
  have hs : (states (i + 1)).schedule = [port] := by rw [h.after_order horder]
  simp [servesAt, hstep, State.nextPort_scheduled hready hs]

theorem movesInTurn_weaklyFair {p : Params} {states : Nat → State} (begun : Nat → Move) (n : Nat) (ds : Nat → Event)
    (h : IsRun p (movesInTurn begun n ds) states) : WeaklyFair (movesInTurn begun n ds) states := by
  intro port m hready
  obtain ⟨k, hk, rfl⟩ := exists_portInTurn port m
  have hm : m ≤ n + 3 * k + 2 := by omega
  exact ⟨n + 3 * k + 2, hm,
    h.serves_ordered (movesInTurn_order begun n ds k) (movesInTurn_step begun n ds k) (hready _ hm)⟩

/-- Settles O59: after the given moves, deliver for ever and serve the ports in turn. -/
theorem fairRunsExist : Obligations.FairRunsExist := by
  intro p begun n ds
  have h := statesOf_isRun p (movesInTurn begun n ds)
  exact ⟨movesInTurn begun n ds, _, h, movesInTurn_weaklyFair begun n ds h,
    fun i hi => movesInTurn_begun begun ds hi, movesInTurn_deliver begun n ds⟩

end Sys2Proof.Machine
end

section
/-!
PROOFS of the family `30_encoding.md`. The reserved command words by port (R80); the revision 2 codec round trip,
and with it what SEND transmits (R84); and the two sentinels read as frame bytes (R78).
-/

namespace Sys2Proof.Machine

/-! ### The command words of each port (R71, R80) -/

theorem wordPort_eq_iff (w : BitVec 11) (port : BitVec 2) : wordPort w = port ↔ w.toNat / 0x200 = port.toNat := by
  rw [← BitVec.toNat_inj, wordPort, BitVec.extractLsb'_toNat, Nat.shiftRight_eq_div_pow]
  omega

theorem wordDir_eq (w : BitVec 11) : wordDir w = decide (w.toNat / 0x100 % 2 = 1) := by
  rw [wordDir, BitVec.getLsbD, Nat.testBit_eq_decide_div_mod_eq]

theorem decode_hostPort (rev : FormatRev) {w : BitVec 11} (h : w.toNat < 0x200) (ops : Operands) :
    decode rev w ops = decodeHost rev w ops := by
  have hport : wordPort w = 0 := (wordPort_eq_iff w 0).2 (Nat.div_eq_of_lt h)
  simp [decode, hport]

theorem decode_receivePort (rev : FormatRev) {w : BitVec 11} (h : 0x200 ≤ w.toNat ∧ w.toNat < 0x400)
    (ops : Operands) : decode rev w ops = decodeReceive w ops := by
  have hport : wordPort w = 1 := (wordPort_eq_iff w 1).2 (Nat.div_eq_of_lt_le h.1 h.2)
  simp [decode, hport]

theorem decode_lookupPort (rev : FormatRev) {w : BitVec 11} (h : 0x400 ≤ w.toNat ∧ w.toNat < 0x600)
    (ops : Operands) : decode rev w ops = decodeLookup w ops := by
  have hport : wordPort w = 2 := (wordPort_eq_iff w 2).2 (Nat.div_eq_of_lt_le h.1 h.2)
  simp [decode, hport]

theorem decode_reservedPort (rev : FormatRev) {w : BitVec 11} (h : 0x600 ≤ w.toNat) (ops : Operands) :
    decode rev w ops = .error .reservedPort := by
  have hport : wordPort w = 3 := (wordPort_eq_iff w 3).2 (Nat.div_eq_of_lt_le h w.isLt)
  simp [decode, hport]

theorem decode_writeWord (rev : FormatRev) {w : BitVec 11} (h : w.toNat ≤ 0xFF) (payload : List Byte) :
    decode rev w (.hw payload) = .ok (decodeHostWrite rev (wordAddr w) payload) := by
  have hdir : wordDir w = false := by rw [wordDir_eq]; exact decide_eq_false (by omega)
  rw [decode_hostPort rev (by omega)]
  simp only [decodeHost, hdir]

theorem decode_readWord (rev : FormatRev) {w : BitVec 11} (h : 0x100 ≤ w.toNat ∧ w.toNat ≤ 0x1FF) (n : Nat) :
    decode rev w (.hr n) = .ok (decodeHostRead rev (wordAddr w) n) := by
  have hdir : wordDir w = true := by rw [wordDir_eq]; exact decide_eq_true (by omega)
  rw [decode_hostPort rev (by omega)]
  simp only [decodeHost, hdir]

/-- Settles O4: the range of a word gives its port, and a host word its direction. -/
theorem reservedWordsAreRefused : Obligations.ReservedWordsAreRefused := by
  intro rev w
  refine ⟨decode_reservedPort rev, fun h ops => ?receive, fun h ops => ?lookup, fun h payload => ?write,
    fun h n => ?read⟩
  case receive =>
    have hw : w ≠ rxWord := by rintro rfl; exact absurd h.1 (by decide)
    exact (decode_receivePort rev (by omega) ops).trans (if_neg hw)
  case lookup =>
    have hw : w ≠ lookupWord := by rintro rfl; exact absurd h (by decide)
    exact (decode_lookupPort rev (by omega) ops).trans (if_neg hw)
  case write => exact ⟨_, decode_writeWord rev h payload⟩
  case read => exact ⟨_, decode_readWord rev h n⟩

/-! ### Decoding what revision 2 encodes (R108) -/

theorem byteAt_append_left {s : List Byte} {i : Nat} (h : i < s.length) (t : List Byte) :
    byteAt (s ++ t) i = byteAt s i := List.getD_append s t 0 i h

theorem byteAt_append_add (s t : List Byte) (i : Nat) : byteAt (s ++ t) (s.length + i) = byteAt t i := by
  rw [byteAt, List.getD_append_right s t 0 _ (Nat.le_add_right ..), Nat.add_sub_cancel_left, byteAt]

/-- The canId read back from its four bytes (R76). -/
theorem canIdFrom_wordBytes (x : Word) (t : List Byte) : canIdFrom (wordBytes x ++ t) = x :=
  wordOfBytes_wordBytes x

/-- The data bytes read back are the canonical ones that were written (R17, R77). -/
theorem dataFrom_wireData (s t : List Byte) (f : WireFrame) :
    dataFrom (s ++ wireData f ++ t) s.length f.dataLength = clearBeyond f.dataLength f.data := by
  have hbyte (i : Fin 8) :
      byteAt (s ++ wireData f ++ t) (s.length + i.val) = (clearBeyond f.dataLength f.data)[i] := by
    have hlen : i.val < (wireData f).length := by simp [wireData]
    rw [List.append_assoc, byteAt_append_add, byteAt_append_left hlen, byteAt_of_lt hlen]
    exact Vector.getElem_toList ..
  refine Vector.ext fun i hi => ?_
  calc (dataFrom (s ++ wireData f ++ t) s.length f.dataLength)[(⟨i, hi⟩ : Fin 8)]
    _ = if i < f.dataLength.toNat then (clearBeyond f.dataLength f.data)[(⟨i, hi⟩ : Fin 8)] else 0 := by
      rw [dataFrom_get, hbyte]
    _ = (clearBeyond f.dataLength f.data)[(⟨i, hi⟩ : Fin 8)] := by
      rw [clearBeyond_get]
      split <;> rfl

/-- The frame that the bytes of a revision 2 frame give back: no flags (R16), and canonical data (R17). -/
def readBackR2 (f : WireFrame) : WireFrame :=
  { f with isExtended := false, isRemoteRequest := false, data := clearBeyond f.dataLength f.data }

/-- Every field of the revision 2 frame bytes read back, whatever their last byte is (R75). -/
theorem bodyR2_append_fields (f : WireFrame) (c : Byte) :
    (bodyR2 f ++ [c]).take 13 = bodyR2 f ∧ byteAt (bodyR2 f ++ [c]) 13 = c ∧
      canIdFrom (bodyR2 f ++ [c]) = f.canId ∧ byteAt (bodyR2 f ++ [c]) 4 = f.dataLength ∧
      dataFrom (bodyR2 f ++ [c]) 5 f.dataLength = clearBeyond f.dataLength f.data := by
  refine ⟨List.take_left' (bodyR2_length f), ?_, ?_, rfl, ?_⟩
  · simp [byteAt]
  · simp only [bodyR2, List.append_assoc, canIdFrom_wordBytes]
  · exact dataFrom_wireData (wordBytes f.canId ++ [f.dataLength]) [c] f

/-- Revision 2 decodes the bytes it encodes (R108). -/
theorem decodeR2_encodeR2 {f : WireFrame} (h : f.dataLength.toNat ≤ 8) :
    ∃ s, encodeR2 f = .ok s ∧ decodeR2 s = .ok (readBackR2 f) := by
  have hlegal : validLength f.dataLength = true := (validLength_iff _).2 h
  obtain ⟨htake, hcrc, hid, hdl, hdata⟩ := bodyR2_append_fields f (crc8 (bodyR2 f))
  refine ⟨bodyR2 f ++ [crc8 (bodyR2 f)], if_pos hlegal, ?_⟩
  simp [decodeR2, readBackR2, htake, hcrc, hid, hdl, hdata, hlegal]

/-! ### SEND (R84, R164) -/

/-- A REG_SEND_FRAME write that decodes (R164). -/
theorem exec_wrSendFrame_ok {s : State} {payload : List Byte} {f : WireFrame} (hrev : s.params.rev = .rev2)
    (h : decodeR2 payload = .ok f) :
    exec (.wrSendFrame payload) s = .next ((s.setSendStatus sendOk).emitTx f).acceptWrite := by
  simp only [exec, execWrSendFrame, hrev, State.sendFrame, h]

/-- Settles O43: SEND's frame is canonical (R84), so the bytes it encodes to decode to it (R108). -/
theorem sendPseudoTransmitsItsFrame : Obligations.SendPseudoTransmitsItsFrame := by
  intro s id dl d hrev hdl
  obtain ⟨payload, henc, hdec⟩ := decodeR2_encodeR2 (f := sendWire id dl d) hdl
  have hcanonical : clearBeyond dl (clearBeyond dl d) = clearBeyond dl d :=
    clearBeyond_of_canonical (clearBeyond_canonical dl d)
  refine ⟨payload, ⟨id, dl, clearBeyond dl d⟩, ?_, rfl, rfl, clearBeyond_get dl d, ?_⟩
  · simp only [expandPseudo, henc]
  · rw [exec_wrSendFrame_ok hrev hdec]
    simp only [readBackR2, sendWire, hcanonical]
    rfl

/-! ### The sentinels as frame bytes (R78) -/

/-- Bytes of the right length whose last is not the checksum of the others (R105). -/
theorem decodeFrame_checksumMismatch {rev : FormatRev} {s : List Byte} (hlen : s.length = frameBytes rev)
    (hcrc : crc8 (s.take (frameBytes rev - 1)) ≠ byteAt s (frameBytes rev - 1)) :
    decodeFrame rev s = .error .checksumMismatch := by
  cases rev with
  | rev1 => exact (if_neg (not_not.2 hlen)).trans (if_pos hcrc)
  | rev2 => exact (if_neg (not_not.2 hlen)).trans (if_pos hcrc)

set_option maxRecDepth 8000 in
/-- Settles O13: the last byte of a filled sentinel is 0x00, and the checksum of the others is not. -/
theorem sentinelAnswerIsNoFrame : Obligations.SentinelAnswerIsNoFrame := fun rev =>
  ⟨decodeFrame_checksumMismatch (fit_length ..) (by cases rev <;> decide),
    decodeFrame_checksumMismatch (fit_length ..) (by cases rev <;> decide)⟩

end Sys2Proof.Machine
end

section
/-!
PROOFS of the family `40_codec.md`. Frame bytes are a body and its checksum: a single-byte change breaks the pair
(R102). What encode writes and decode reads, byte by byte in both layouts (R103 to R107), and the two round trips
(R108).
-/

namespace Sys2Proof.Machine

/-! ### The checksum (R100, R102) -/

set_option maxRecDepth 8000 in
/-- Settles O5: `crcByte` is the eight shifts, and the check values evaluate. -/
theorem checksumFollowsTheCrcAlgorithm : Obligations.ChecksumFollowsTheCrcAlgorithm :=
  ⟨rfl, crc8_concat, by decide, by decide, by decide, by decide⟩

/-- Accepted bytes are FRAME_BYTES long, and the last one is the checksum of the others (R101, R105). -/
theorem decodeFrame_ok_checksum {rev : FormatRev} {b : List Byte} {f : WireFrame} (h : decodeFrame rev b = .ok f) :
    b.length = frameBytes rev ∧ crc8 (b.take (frameBytes rev - 1)) = byteAt b (frameBytes rev - 1) := by
  cases rev with
  | rev1 =>
    obtain ⟨hlen, hcrc, _, _⟩ := decodeR1_ok h
    exact ⟨hlen, hcrc⟩
  | rev2 =>
    obtain ⟨hlen, hcrc, _, _⟩ := decodeR2_ok h
    exact ⟨hlen, hcrc⟩

/-- A change of one byte leaves a checksum in last place that does not match: the changed byte is either the
checksum itself or one of those that it covers. -/
theorem crc8_take_set_ne {b : List Byte} {n i : Nat} {x : Byte} (hn : b.length = n + 1)
    (hcrc : crc8 (b.take n) = byteAt b n) (hi : i < b.length) (hx : b[i] ≠ x) :
    crc8 ((b.set i x).take n) ≠ byteAt (b.set i x) n := by
  rcases (by omega : i = n ∨ i < n) with rfl | hlt
  · have hbyte : byteAt (b.set i x) i = x := by simp [byteAt, hi]
    rw [List.take_set_of_le (Nat.le_refl i), hcrc, byteAt_of_lt hi, hbyte]
    exact hx
  · have hbyte : byteAt (b.set i x) n = byteAt b n := by simp [byteAt, List.getElem?_set_ne hlt.ne]
    have hcovered : i < (b.take n).length := by rw [List.length_take]; omega
    rw [List.take_set, hbyte, ← hcrc]
    exact crc8_set_ne hcovered (by rwa [List.getElem_take])

/-- Settles O6: the checksum no longer matches, and decode checks it before all but the length. -/
theorem singleByteChangeIsDetected : Obligations.SingleByteChangeIsDetected := by
  intro rev b f hok i hi x hx
  obtain ⟨hlen, hcrc⟩ := decodeFrame_ok_checksum hok
  have hlast : b.length = frameBytes rev - 1 + 1 := by rw [hlen]; cases rev <;> rfl
  have hne : b[i] ≠ x := fun heq => hx (heq ▸ List.getElem?_eq_getElem hi)
  exact decodeFrame_checksumMismatch (by rw [List.length_set, hlen]) (crc8_take_set_ne hlast hcrc hi hne)

/-! ### What encode writes (R103, R104) -/

theorem encodeR1_of_legal {f : WireFrame} (h : f.dataLength.toNat ≤ 8) :
    encodeR1 f = .ok (bodyR1 f ++ [crc8 (bodyR1 f)]) := if_pos ((validLength_iff _).2 h)

theorem encodeR2_of_legal {f : WireFrame} (h : f.dataLength.toNat ≤ 8) :
    encodeR2 f = .ok (bodyR2 f ++ [crc8 (bodyR2 f)]) := if_pos ((validLength_iff _).2 h)

/-- The data bytes stand behind whatever comes before them, 0x00 at and beyond dataLength (R77). -/
theorem getElem?_append_wireData (s t : List Byte) (f : WireFrame) (i : Fin 8) :
    (s ++ wireData f ++ t)[s.length + i.val]? = some (if i.val < f.dataLength.toNat then f.data[i] else 0) := by
  have hi : i.val < (wireData f).length := by simp [wireData]
  rw [List.append_assoc, List.getElem?_append_right (Nat.le_add_right ..), Nat.add_sub_cancel_left,
    List.getElem?_append_left hi, List.getElem?_eq_getElem hi, ← clearBeyond_get]
  exact congrArg some (Vector.getElem_toList ..)

/-- The checksum stands behind the body that it covers (R101). -/
theorem getElem?_append_crc8 (s : List Byte) :
    (s ++ [crc8 s])[s.length]? = some (crc8 ((s ++ [crc8 s]).take s.length)) := by
  rw [List.take_left, List.getElem?_concat_length]

/-- Settles O7. -/
theorem encodeRevision1LaysOutTheFrame : Obligations.EncodeRevision1LaysOutTheFrame := by
  refine fun f => ⟨encodeFrame_error (rev := .rev1), fun h => ⟨_, encodeR1_of_legal h, ?length,
    rfl, rfl, rfl, rfl, rfl, rfl, rfl, fun i => ?data, ?crc⟩⟩
  case length => rw [List.length_append, bodyR1_length]; rfl
  case data =>
    exact getElem?_append_wireData
      (wordBytes f.canId ++ [flagByte f.isExtended, flagByte f.isRemoteRequest, f.dataLength]) _ f i
  case crc => simpa only [bodyR1_length] using getElem?_append_crc8 (bodyR1 f)

/-- Settles O8. -/
theorem encodeRevision2LaysOutTheFrame : Obligations.EncodeRevision2LaysOutTheFrame := by
  refine fun f => ⟨encodeFrame_error (rev := .rev2), fun h => ⟨_, encodeR2_of_legal h, ?length,
    rfl, rfl, rfl, rfl, rfl, fun i => ?data, ?crc⟩⟩
  case length => rw [List.length_append, bodyR2_length]; rfl
  case data => exact getElem?_append_wireData (wordBytes f.canId ++ [f.dataLength]) _ f i
  case crc => simpa only [bodyR2_length] using getElem?_append_crc8 (bodyR2 f)

/-! ### What decode reads (R105 to R107) -/

theorem getElem?_eq_byteAt {s : List Byte} {i : Nat} (h : i < s.length) : s[i]? = some (byteAt s i) := by
  rw [byteAt_of_lt h, List.getElem?_eq_getElem h]

theorem byteAt_of_getElem? {s : List Byte} {i : Nat} {b : Byte} (h : s[i]? = some b) : byteAt s i = b := by
  simp [byteAt, h]

theorem ne_byteAt_of_getElem? {s : List Byte} {i : Nat} {b : Byte} (hi : i < s.length) (h : s[i]? ≠ some b) :
    b ≠ byteAt s i := by
  rintro rfl
  exact h (getElem?_eq_byteAt hi)

/-- The frame that DECODE_R1 reads, the checks having passed (R106). -/
def readR1 (s : List Byte) : WireFrame :=
  { canId := canIdFrom s
    isExtended := flagOfByte (byteAt s 4)
    isRemoteRequest := flagOfByte (byteAt s 5)
    dataLength := byteAt s 6
    data := dataFrom s 7 (byteAt s 6) }

/-- The frame that DECODE_R2 reads, the checks having passed (R107). -/
def readR2 (s : List Byte) : WireFrame :=
  { canId := canIdFrom s
    isExtended := false
    isRemoteRequest := false
    dataLength := byteAt s 4
    data := dataFrom s 5 (byteAt s 4) }

/-- R105's first two checks passed, and dataLength legal. -/
theorem decodeR1_accepts {s : List Byte} (hlen : s.length = 16) (hcrc : crc8 (s.take 15) = byteAt s 15)
    (hdl : (byteAt s 6).toNat ≤ 8) : decodeR1 s = .ok (readR1 s) :=
  (if_neg (not_not.2 hlen)).trans ((if_neg (not_not.2 hcrc)).trans (if_pos ((validLength_iff _).2 hdl)))

theorem decodeR2_accepts {s : List Byte} (hlen : s.length = 14) (hcrc : crc8 (s.take 13) = byteAt s 13)
    (hdl : (byteAt s 4).toNat ≤ 8) : decodeR2 s = .ok (readR2 s) :=
  (if_neg (not_not.2 hlen)).trans ((if_neg (not_not.2 hcrc)).trans (if_pos ((validLength_iff _).2 hdl)))

/-- R105's first two checks passed, and dataLength too big. -/
theorem decodeR1_invalidLength {s : List Byte} (hlen : s.length = 16) (hcrc : crc8 (s.take 15) = byteAt s 15)
    (hdl : 8 < (byteAt s 6).toNat) : decodeR1 s = .error .invalidLength :=
  (if_neg (not_not.2 hlen)).trans ((if_neg (not_not.2 hcrc)).trans
    (if_neg (mt (validLength_iff _).1 (Nat.not_le.2 hdl))))

theorem decodeR2_invalidLength {s : List Byte} (hlen : s.length = 14) (hcrc : crc8 (s.take 13) = byteAt s 13)
    (hdl : 8 < (byteAt s 4).toNat) : decodeR2 s = .error .invalidLength :=
  (if_neg (not_not.2 hlen)).trans ((if_neg (not_not.2 hcrc)).trans
    (if_neg (mt (validLength_iff _).1 (Nat.not_le.2 hdl))))

theorem dataFrom_get_eq_getElem? {s : List Byte} {at0 : Nat} (h : at0 + 8 ≤ s.length) (dl : Byte) (i : Fin 8) :
    some (dataFrom s at0 dl)[i] = if i.val < dl.toNat then s[at0 + i.val]? else some 0 := by
  rw [dataFrom_get, getElem?_eq_byteAt (by omega)]
  split <;> rfl

theorem flagOfByte_eq_decide (b : Byte) : flagOfByte b = decide (b ≠ 0x00) := (decide_not ..).symm

/-- Settles O9: the checks in the order of R105, and then `readR1`. -/
theorem decodeRevision1ChecksThenReads : Obligations.DecodeRevision1ChecksThenReads := by
  intro s
  refine ⟨fun hlen => if_pos hlen, fun hlen hcrc => ?mismatch, fun dl hlen hcrc hdl h => ?invalidLength,
    fun b0 b1 b2 b3 b4 b5 dl hlen hcrc h0 h1 h2 h3 h4 h5 hdl h => ⟨readR1 s, ?ok, ?fields⟩⟩
  case mismatch =>
    exact decodeFrame_checksumMismatch (rev := .rev1) hlen (ne_byteAt_of_getElem? (hlen ▸ by decide) hcrc)
  case invalidLength =>
    exact decodeR1_invalidLength hlen (byteAt_of_getElem? hcrc).symm ((byteAt_of_getElem? hdl).symm ▸ h)
  case ok => exact decodeR1_accepts hlen (byteAt_of_getElem? hcrc).symm ((byteAt_of_getElem? hdl).symm ▸ h)
  case fields =>
    rw [← byteAt_of_getElem? h0, ← byteAt_of_getElem? h1, ← byteAt_of_getElem? h2, ← byteAt_of_getElem? h3,
      ← byteAt_of_getElem? h4, ← byteAt_of_getElem? h5, ← byteAt_of_getElem? hdl]
    exact ⟨rfl, flagOfByte_eq_decide _, flagOfByte_eq_decide _, rfl, dataFrom_get_eq_getElem? (by omega) _⟩

/-- Settles O10: the checks in the order of R105, and then `readR2`. -/
theorem decodeRevision2ChecksThenReads : Obligations.DecodeRevision2ChecksThenReads := by
  intro s
  refine ⟨fun hlen => if_pos hlen, fun hlen hcrc => ?mismatch, fun dl hlen hcrc hdl h => ?invalidLength,
    fun b0 b1 b2 b3 dl hlen hcrc h0 h1 h2 h3 hdl h => ⟨readR2 s, ?ok, ?fields⟩⟩
  case mismatch =>
    exact decodeFrame_checksumMismatch (rev := .rev2) hlen (ne_byteAt_of_getElem? (hlen ▸ by decide) hcrc)
  case invalidLength =>
    exact decodeR2_invalidLength hlen (byteAt_of_getElem? hcrc).symm ((byteAt_of_getElem? hdl).symm ▸ h)
  case ok => exact decodeR2_accepts hlen (byteAt_of_getElem? hcrc).symm ((byteAt_of_getElem? hdl).symm ▸ h)
  case fields =>
    rw [← byteAt_of_getElem? h0, ← byteAt_of_getElem? h1, ← byteAt_of_getElem? h2, ← byteAt_of_getElem? h3,
      ← byteAt_of_getElem? hdl]
    exact ⟨rfl, rfl, rfl, rfl, dataFrom_get_eq_getElem? (by omega) _⟩

/-! ### From frame to bytes and back (R108) -/

theorem flagOfByte_flagByte (b : Bool) : flagOfByte (flagByte b) = b := by cases b <;> rfl

/-- The canonical form of a frame: its data cleared at and beyond dataLength (R17). -/
def canonicalForm (f : WireFrame) : WireFrame := { f with data := clearBeyond f.dataLength f.data }

theorem canonicalForm_of_canonical {f : WireFrame} (h : Canonical f.dataLength f.data) : canonicalForm f = f := by
  rw [canonicalForm, clearBeyond_of_canonical h]

/-- Every field of the revision 1 frame bytes read back, whatever their last byte is (R74). -/
theorem readR1_bodyR1_append (f : WireFrame) (c : Byte) : readR1 (bodyR1 f ++ [c]) = canonicalForm f := by
  have hid : canIdFrom (bodyR1 f ++ [c]) = f.canId := by
    simp only [bodyR1, List.append_assoc, canIdFrom_wordBytes]
  have hdata : dataFrom (bodyR1 f ++ [c]) 7 f.dataLength = clearBeyond f.dataLength f.data :=
    dataFrom_wireData
      (wordBytes f.canId ++ [flagByte f.isExtended, flagByte f.isRemoteRequest, f.dataLength]) [c] f
  have h4 : byteAt (bodyR1 f ++ [c]) 4 = flagByte f.isExtended := rfl
  have h5 : byteAt (bodyR1 f ++ [c]) 5 = flagByte f.isRemoteRequest := rfl
  have h6 : byteAt (bodyR1 f ++ [c]) 6 = f.dataLength := rfl
  simp only [readR1, canonicalForm, hid, h4, h5, h6, hdata, flagOfByte_flagByte]

theorem crc8_take_append {body : List Byte} {n : Nat} (h : body.length = n) :
    crc8 ((body ++ [crc8 body]).take n) = byteAt (body ++ [crc8 body]) n := by
  subst h
  exact (byteAt_of_getElem? (getElem?_append_crc8 body)).symm

theorem decodeR1_encodeR1 {f : WireFrame} (h : f.dataLength.toNat ≤ 8) :
    ∃ s, encodeR1 f = .ok s ∧ decodeR1 s = .ok (canonicalForm f) := by
  refine ⟨bodyR1 f ++ [crc8 (bodyR1 f)], encodeR1_of_legal h, ?_⟩
  rw [decodeR1_accepts (by simp) (crc8_take_append (bodyR1_length f)) h, readR1_bodyR1_append]

/-- Both revisions decode the bytes they encode to the canonical form, revision 2 when no flag is lost. -/
theorem decodeFrame_encodeFrame (rev : FormatRev) {f : WireFrame} (h : f.dataLength.toNat ≤ 8)
    (hflags : rev = .rev2 → f.isExtended = false ∧ f.isRemoteRequest = false) :
    ∃ s, encodeFrame rev f = .ok s ∧ decodeFrame rev s = .ok (canonicalForm f) := by
  cases rev with
  | rev1 => exact decodeR1_encodeR1 h
  | rev2 =>
    obtain ⟨hext, hrtr⟩ := hflags rfl
    have hread : readBackR2 f = canonicalForm f := by simp only [readBackR2, canonicalForm, hext, hrtr]
    exact hread ▸ decodeR2_encodeR2 h

/-- Settles O11. -/
theorem decodeInvertsEncode : Obligations.DecodeInvertsEncode := by
  intro rev f h hflags
  obtain ⟨s, henc, hdec⟩ := decodeFrame_encodeFrame rev h hflags
  exact ⟨s, canonicalForm f, henc, hdec, rfl, rfl, rfl, rfl, clearBeyond_get f.dataLength f.data,
    canonicalForm_of_canonical⟩

/-! ### From bytes to frame and back (R108, R109) -/

theorem flagByte_flagOfByte_iff (b : Byte) : flagByte (flagOfByte b) = b ↔ b = 0x00 ∨ b = 0x01 := by
  by_cases h : b = 0x00
  · subst h; decide
  · have htrue : flagOfByte b = true := bne_iff_ne.2 h
    simp only [htrue, flagByte, if_true, h, false_or, eq_comm (a := b)]

theorem take_succ_eq_append_byteAt {s : List Byte} {n : Nat} (h : n < s.length) :
    s.take (n + 1) = s.take n ++ [byteAt s n] := by
  rw [byteAt_of_lt h, List.take_append_getElem]

/-- Bytes that end in their checksum are given by the bytes before it. -/
theorem append_crc8_eq_iff {s body : List Byte} {n : Nat} (hlen : s.length = n + 1)
    (hcrc : crc8 (s.take n) = byteAt s n) : body ++ [crc8 body] = s ↔ body = s.take n := by
  constructor
  · rintro rfl
    rw [List.take_left' (by simpa using hlen)]
  · rintro rfl
    rw [hcrc, ← take_succ_eq_append_byteAt (by omega), ← hlen, List.take_length]

theorem take_drop_eq_ofFn {s : List Byte} {at0 : Nat} (h : at0 + 8 ≤ s.length) :
    (s.drop at0).take 8 = List.ofFn fun i : Fin 8 => byteAt s (at0 + i.val) := by
  refine List.ext_getElem (by simp; omega) fun i hi _ => ?_
  have hlt : i < 8 := by rw [List.length_take] at hi; omega
  rw [List.getElem_take, List.getElem_drop, List.getElem_ofFn]
  exact (byteAt_of_lt (by omega)).symm

/-- Data bytes that were read are written again as they stood exactly when those at and beyond dataLength, which
no read takes, were 0x00 (R77). -/
theorem wireData_eq_iff {s : List Byte} {at0 : Nat} {f : WireFrame} (h : at0 + 8 ≤ s.length)
    (hf : f.data = dataFrom s at0 f.dataLength) :
    wireData f = (s.drop at0).take 8 ↔ ∀ i : Fin 8, f.dataLength.toNat ≤ i.val → s[at0 + i.val]? = some 0 := by
  have hwritten : wireData f =
      List.ofFn fun i : Fin 8 => if i.val < f.dataLength.toNat then byteAt s (at0 + i.val) else 0 := by
    rw [wireData, hf, clearBeyond_of_canonical, dataFrom, Vector.toList_ofFn]
    intro i hi
    rw [dataFrom_get, if_neg (by omega)]
  rw [hwritten, take_drop_eq_ofFn h, List.ofFn_inj, funext_iff]
  refine forall_congr' fun i => ?_
  rw [getElem?_eq_byteAt (show at0 + i.val < s.length by omega)]
  by_cases hi : i.val < f.dataLength.toNat
  · simp [hi]
  · simp [hi, eq_comm, Nat.le_of_not_lt hi]

/-- The canId that was read is written as it stood (R76). -/
theorem wordBytes_canIdFrom {s : List Byte} (h : 4 ≤ s.length) : wordBytes (canIdFrom s) = s.take 4 := by
  rw [canIdFrom, wordBytes_wordOfBytes, take_succ_eq_append_byteAt (n := 3) (by omega),
    take_succ_eq_append_byteAt (n := 2) (by omega), take_succ_eq_append_byteAt (n := 1) (by omega),
    take_succ_eq_append_byteAt (n := 0) (by omega)]
  rfl

/-- Of the revision 1 fields, only the flag bytes and the data can be written otherwise than they stood. -/
theorem bodyR1_readR1_eq_take_iff {s : List Byte} (h : s.length = 16) :
    bodyR1 (readR1 s) = s.take 15 ↔
      wireData (readR1 s) = (s.drop 7).take 8 ∧
      flagByte (flagOfByte (byteAt s 4)) = byteAt s 4 ∧ flagByte (flagOfByte (byteAt s 5)) = byteAt s 5 := by
  have hbody : bodyR1 (readR1 s) = s.take 4 ++ ([flagByte (flagOfByte (byteAt s 4)),
      flagByte (flagOfByte (byteAt s 5)), byteAt s 6] ++ wireData (readR1 s)) := by
    rw [← wordBytes_canIdFrom (by omega), ← List.append_assoc]
    rfl
  have htake : s.take 15 = s.take 4 ++ ([byteAt s 4, byteAt s 5, byteAt s 6] ++ (s.drop 7).take 8) := by
    rw [List.take_add (i := 7) (j := 8), take_succ_eq_append_byteAt (n := 6) (by omega),
      take_succ_eq_append_byteAt (n := 5) (by omega), take_succ_eq_append_byteAt (n := 4) (by omega)]
    simp only [List.append_assoc, List.cons_append, List.nil_append]
  rw [hbody, htake, List.append_right_inj]
  simp only [List.cons_append, List.nil_append, List.cons.injEq, true_and]
  tauto

/-- Of the revision 2 fields, only the data can be written otherwise than it stood. -/
theorem bodyR2_readR2_eq_take_iff {s : List Byte} (h : s.length = 14) :
    bodyR2 (readR2 s) = s.take 13 ↔ wireData (readR2 s) = (s.drop 5).take 8 := by
  have hbody : bodyR2 (readR2 s) = s.take 4 ++ [byteAt s 4] ++ wireData (readR2 s) := by
    rw [← wordBytes_canIdFrom (by omega)]
    rfl
  have htake : s.take 13 = s.take 4 ++ [byteAt s 4] ++ (s.drop 5).take 8 := by
    rw [← take_succ_eq_append_byteAt (by omega)]
    exact List.take_add (i := 5) (j := 8)
  rw [hbody, htake, List.append_right_inj]

/-- Settles O12: what was read is written as it stood, but for flag bytes above 0x01 and padding that is not 0x00. -/
theorem encodeInvertsDecodeOnCanonicalBytes : Obligations.EncodeInvertsDecodeOnCanonicalBytes := by
  refine ⟨fun s f h => ?rev1, fun s f h => ?rev2⟩
  case rev1 =>
    obtain ⟨hlen, hcrc, hdl, hf⟩ := decodeR1_ok h
    obtain rfl : f = readR1 s := hf
    rw [encodeR1_of_legal hdl, Except.ok.injEq, append_crc8_eq_iff hlen hcrc, bodyR1_readR1_eq_take_iff hlen,
      wireData_eq_iff (by omega) rfl, flagByte_flagOfByte_iff, flagByte_flagOfByte_iff,
      getElem?_eq_byteAt (show 4 < s.length by omega), getElem?_eq_byteAt (show 5 < s.length by omega)]
    simp only [Option.some.injEq]
  case rev2 =>
    obtain ⟨hlen, hcrc, hdl, hf⟩ := decodeR2_ok h
    obtain rfl : f = readR2 s := hf
    rw [encodeR2_of_legal hdl, Except.ok.injEq, append_crc8_eq_iff hlen hcrc, bodyR2_readR2_eq_take_iff hlen,
      wireData_eq_iff (by omega) rfl]

end Sys2Proof.Machine
end

section
/-!
PROOFS of the family `41_buffer.md`. Each case of insert as one state update (R132 to R135); LOOKUP as membership of
the list of unread frames (R137); and on that list what two frames of one identifier (R141) and CAPACITY + 1 frames
of different ones (R142) leave.
-/

namespace Sys2Proof.Machine

/-! ### RX_FRAME, one equation per case of insert (R132 to R135) -/

/-- An identifier in range is not the key of an empty entry (R11, R24). -/
theorem ne_idEmpty_of_valid {r : RxOperands} (hr : ValidRx r) : r.canId ≠ idEmpty := by
  intro h
  have hrange := hr.1
  rw [h] at hrange
  exact absurd hrange (by decide)

theorem exec_rxFrame_valid {s t : State} {r : RxOperands} {o : RxOutcome} (hr : ValidRx r)
    (h : s.insertFrame (frameOf s.params.rev r) = (t, o)) : exec (.rxFrame r) s = .next (t.driveRx o) := by
  show Host.Outcome.next ((s.insert r).1.driveRx (s.insert r).2) = _
  rw [s.insert_valid hr, h]

theorem State.insertFrame_known {s : State} {f : Frame} {k : Nat} (h : s.camFind f.canId = some k) :
    s.insertFrame f = (s.setSlot (s.entry k).pos.toNat f, .updated) := by
  simp only [State.insertFrame, h]

theorem State.insertFrame_stored {s : State} {f : Frame} (h : s.camFind f.canId = none)
    (hfree : s.count.toNat < s.params.capacity) : s.insertFrame f = (s.allocate f, .stored) := by
  simp only [State.insertFrame, h, if_pos hfree]

theorem State.insertFrame_rejected {s : State} {f : Frame} (h : s.camFind f.canId = none)
    (hfull : s.count.toNat = s.params.capacity) (hpolicy : s.params.policy = .reject) :
    s.insertFrame f = (s, .bufferFull) := by
  simp only [State.insertFrame, h, if_neg hfull.not_lt, hpolicy]

theorem State.insertFrame_evicted {s : State} {f : Frame} (h : s.camFind f.canId = none)
    (hfull : s.count.toNat = s.params.capacity) (hpolicy : s.params.policy = .evictOldest) :
    s.insertFrame f = (s.removeHead.allocate f, .storedEvicted) := by
  simp only [State.insertFrame, h, if_neg hfull.not_lt, hpolicy]

theorem State.Inv.camFind_new {s : State} (hs : s.Inv) {id : Word}
    (hnew : ∀ k, k < s.params.capacity → (s.entry k).key ≠ id) : s.camFind id = none :=
  State.camFind_eq_none fun k hk => hnew k (hs.indexLength ▸ hk)

/-- Settles O24: the entry is the one the CAM search finds (I2), and the update writes its slot alone. -/
theorem rxKnownIdUpdatesInPlace : Obligations.RxKnownIdUpdatesInPlace := by
  intro s r k hs hr hk hkey
  have hfind : s.camFind r.canId = some k := hs.camFind_eq hk hkey (ne_idEmpty_of_valid hr)
  exact ⟨_, frameOf_formed _ r, exec_rxFrame_valid hr (State.insertFrame_known hfind)⟩

/-- A ring position fits in a byte (R9, R12). -/
theorem State.Inv.toNat_ofNat_ringPos {s : State} (hs : s.Inv) (j : Nat) :
    (BitVec.ofNat 8 (s.ringPos j)).toNat = s.ringPos j :=
  toNat_ofNat_of_lt ((s.ringPos_lt hs.paramsWf.1 j).le.trans hs.paramsWf.2)

/-- Settles O25: the allocation, at the lowest empty entry, which exists while a slot is free (I4). -/
theorem rxNewIdIsStored : Obligations.RxNewIdIsStored := by
  intro s r hs hr hnew hfree
  obtain ⟨k, hk, halloc⟩ := hs.camAlloc_isSome hfree
  obtain ⟨_, hempty, hlowest⟩ := State.camAlloc_some halloc
  have hp := hs.toNat_ofNat_ringPos s.count.toNat
  refine ⟨_, k, _, frameOf_formed _ r, hp, hk, hempty, hlowest, ?_⟩
  rw [exec_rxFrame_valid hr (State.insertFrame_stored (hs.camFind_new hnew) hfree), State.allocate_eq halloc, hp]
  rfl

/-- Settles O26: insert leaves the state as it is. -/
theorem rxFullBufferRejects : Obligations.RxFullBufferRejects :=
  fun _ _ hs hr hnew hfull hpolicy =>
    exec_rxFrame_valid hr (State.insertFrame_rejected (hs.camFind_new hnew) hfull hpolicy)

/-! ### Evicting the oldest frame (R135, R139) -/

/-- In a full buffer no index entry is empty (I4). -/
theorem State.Inv.key_ne_idEmpty_of_full {s : State} (hs : s.Inv) (hfull : s.count.toNat = s.params.capacity)
    {k : Nat} (hk : k < s.params.capacity) : (s.entry k).key ≠ idEmpty := by
  have hall : s.index.countP (fun e => e.key != idEmpty) = s.index.length := by
    rw [hs.entryCount, hfull, hs.indexLength]
  have hlt : k < s.index.length := hs.indexLength ▸ hk
  rw [State.entry_eq_getElem s k hlt]
  simpa using List.countP_eq_length.1 hall _ (List.getElem_mem hlt)

/-- One place past the last of a full ring is its head again (R25). -/
theorem succ_mod_add_pred_mod {h c : Nat} (hh : h < c) : ((h + 1) % c + (c - 1)) % c = h := by
  rw [Nat.mod_add_mod, show h + 1 + (c - 1) = h + c by omega, Nat.add_mod_right, Nat.mod_eq_of_lt hh]

/-- The eviction as one update: the new frame takes the slot and the index entry that `remove_head` frees. -/
theorem State.removeHead_allocate_eq {s : State} (hs : s.Inv) (hfull : s.count.toNat = s.params.capacity)
    (f : Frame) :
    ∃ k, k < s.params.capacity ∧ (s.entry k).key = (s.slot s.head.toNat).canId ∧
      s.removeHead.allocate f =
        { s with
          slots := s.slots.set s.head.toNat f
          index := s.index.set k { key := f.canId, pos := s.head }
          head := BitVec.ofNat 8 (s.ringPos 1) } := by
  have hcount := hs.countPos_of_full hfull
  obtain ⟨k, hk, _, _, hkey, heq⟩ := State.removeHead_eq hs hcount
  have hk' : k < s.index.length := hs.indexLength ▸ hk
  have hentry : ∀ m, s.removeHead.entry m = if m = k then markEmpty (s.entry k) else s.entry m := by
    intro m
    rw [heq]
    exact State.entry_setEntry s k _ m hk'
  have halloc : s.removeHead.camAlloc = some k := by
    refine State.camAlloc_eq (by simpa [heq] using hk') (by rw [hentry, if_pos rfl]; rfl) fun m hm => ?_
    rw [hentry, if_neg hm.ne]
    exact hs.key_ne_idEmpty_of_full hfull (hm.trans hk)
  have hplace : s.removeHead.ringPos s.removeHead.count.toNat = s.head.toNat := by
    have hhead : s.removeHead.head.toNat = s.ringPos 1 := by
      rw [heq]
      exact hs.toNat_ofNat_ringPos 1
    have hpred : s.removeHead.count.toNat = s.params.capacity - 1 := by
      have hsucc := State.removeHead_count hs hcount
      omega
    rw [State.ringPos, hhead, hpred, State.removeHead_params hs hcount]
    exact succ_mod_add_pred_mod hs.headLt
  refine ⟨k, hk, hkey, ?_⟩
  rw [State.allocate_eq halloc, hplace, heq]
  simp

/-- Settles O27, by that one update. -/
theorem rxFullBufferEvictsOldest : Obligations.RxFullBufferEvictsOldest := by
  intro s r hs hr hnew hfull hpolicy
  obtain ⟨k, hk, hkey, heq⟩ := State.removeHead_allocate_eq hs hfull (frameOf s.params.rev r)
  refine ⟨_, k, _, frameOf_formed _ r, hk, hkey, hs.toNat_ofNat_ringPos 1, ?_⟩
  rw [exec_rxFrame_valid hr (State.insertFrame_evicted (hs.camFind_new hnew) hfull hpolicy), heq]
  rfl

/-! ### LOOKUP on the list of unread frames (R137, R202) -/

theorem State.lookupFrame_hit {s : State} {id : Word} {k : Nat} (h : s.camFind id = some k) :
    s.lookupFrame id = some (s.slot (s.entry k).pos.toNat) := by
  simp only [State.lookupFrame, h]

theorem State.lookupFrame_miss {s : State} {id : Word} (h : s.camFind id = none) : s.lookupFrame id = none := by
  simp only [State.lookupFrame, h]

/-- LOOKUP finds each unread frame under its identifier, and nothing else (I2, I3). -/
theorem State.lookupFrame_eq_some_iff {s : State} (hs : s.Inv) (id : Word) (f : Frame) :
    s.lookupFrame id = some f ↔ f ∈ s.unread ∧ f.canId = id := by
  rw [State.mem_unread_iff hs]
  constructor
  · intro h
    cases hk : s.camFind id with
    | none =>
      rw [State.lookupFrame_miss hk] at h
      cases h
    | some k =>
      obtain ⟨_, hp, hlive, hid, _⟩ := hs.camFind_hit hk
      rw [State.lookupFrame_hit hk] at h
      cases h
      exact ⟨⟨_, hp, hlive, rfl⟩, hid⟩
  · rintro ⟨⟨p, hp, hlive, rfl⟩, rfl⟩
    obtain ⟨k, _, hk, hpos, _⟩ := hs.camFind_live hp hlive
    rw [State.lookupFrame_hit hk, hpos]

theorem State.lookupFrame_isSome_iff {s : State} (hs : s.Inv) (id : Word) :
    (s.lookupFrame id).isSome = true ↔ id ∈ s.unread.map Frame.canId := by
  simp only [Option.isSome_iff_exists, State.lookupFrame_eq_some_iff hs, List.mem_map]

/-- Settles O32: the unread frames are those of the live slots. -/
theorem lookupAnswersTheLiveFrame : Obligations.LookupAnswersTheLiveFrame := by
  intro s id hs
  refine ⟨_, rfl, fun f => ?_⟩
  rw [State.lookupFrame_eq_some_iff hs, State.mem_unread_iff hs]
  constructor
  · rintro ⟨⟨p, hp, hlive, rfl⟩, hid⟩
    exact ⟨p, hp, rfl, hlive, hid⟩
  · rintro ⟨p, hp, rfl, hlive, hid⟩
    exact ⟨⟨p, hp, hlive, rfl⟩, hid⟩

/-! ### Insert on the list of unread frames, case by case (R132 to R135) -/

section
variable {p : Params} {q : List Frame} {f : Frame}

theorem fifoInsert_known (h : f.canId ∈ q.map Frame.canId) :
    fifoInsert p q f = (q.map (fun g => if g.canId = f.canId then f else g), .updated) :=
  if_pos (by simpa using h)

theorem fifoInsert_stored (hnew : f.canId ∉ q.map Frame.canId) (hfree : q.length < p.capacity) :
    fifoInsert p q f = (q ++ [f], .stored) :=
  (if_neg (by simpa using hnew)).trans (if_pos hfree)

theorem fifoInsert_rejected (hnew : f.canId ∉ q.map Frame.canId) (hfull : q.length = p.capacity)
    (hpolicy : p.policy = .reject) : fifoInsert p q f = (q, .bufferFull) := by
  refine (if_neg (by simpa using hnew)).trans ((if_neg hfull.not_lt).trans ?_)
  simp only [hpolicy]

theorem fifoInsert_evicted (hnew : f.canId ∉ q.map Frame.canId) (hfull : q.length = p.capacity)
    (hpolicy : p.policy = .evictOldest) : fifoInsert p q f = (q.tail ++ [f], .storedEvicted) := by
  refine (if_neg (by simpa using hnew)).trans ((if_neg hfull.not_lt).trans ?_)
  simp only [hpolicy]

theorem fifoRx_valid {r : RxOperands} (hr : ValidRx r) : fifoRx p q r = fifoInsert p q (frameOf p.rev r) := by
  obtain ⟨hrange, hrejected, hnotReady, hlength⟩ := hr
  have hid : ¬ (0x1FFFFFFF < r.canId.toNat ∨ r.canId = 0x01010101#32 ∨ r.canId = 0x01010102#32) := by
    simp [hrange, hrejected, hnotReady]
  exact (if_neg hid).trans (if_neg hlength.not_gt)

end

/-- RX_FRAME with valid operands, on the list of unread frames. -/
theorem exec_rxFrame_unread {s : State} (hs : s.Inv) {r : RxOperands} (hr : ValidRx r) :
    ∃ t, exec (.rxFrame r) s = .next t ∧ t.Inv ∧ t.params = s.params ∧ t.lookupOut = s.lookupOut ∧
      t.unread = (fifoInsert s.params s.unread (frameOf s.params.rev r)).1 ∧
      t.rxOut = s.rxOut ++ [rxCode (fifoInsert s.params s.unread (frameOf s.params.rev r)).2] := by
  obtain ⟨t, hexec, hunread, hcode⟩ := rxRefinesTheUnreadList s r hs
  rw [fifoRx_valid hr] at hunread hcode
  refine ⟨t, hexec, exec_inv hs hexec, exec_params hexec, ?_, hunread, hcode⟩
  cases hexec
  exact (s.insert_sameOutside r).lookupOut

theorem execAll_cons {i : Instr} {is : List Instr} {s t : State} (h : exec i s = .next t) :
    execAll (i :: is) s = execAll is t := by
  simp only [execAll, h]

/-! ### Two frames with one identifier (R141) -/

/-- A frame whose identifier is unread takes that frame's place, and leaves the others. -/
theorem fifoInsert_known_result {p : Params} {q : List Frame} {f : Frame} (h : f.canId ∈ q.map Frame.canId) :
    f ∈ (fifoInsert p q f).1 ∧ (fifoInsert p q f).1.length = q.length := by
  rw [fifoInsert_known h]
  obtain ⟨g, hg, hid⟩ := List.mem_map.1 h
  exact ⟨List.mem_map.2 ⟨g, hg, if_pos hid⟩, List.length_map _⟩

/-- A frame that no full buffer turns away is unread afterwards, and at most one frame more is unread than before. -/
theorem fifoInsert_accepted {p : Params} {q : List Frame} {f : Frame} (hq : q.length ≤ p.capacity)
    (h : ¬ (p.policy = .reject ∧ q.length = p.capacity ∧ f.canId ∉ q.map Frame.canId)) :
    f ∈ (fifoInsert p q f).1 ∧ (fifoInsert p q f).1.length ≤ q.length + 1 := by
  by_cases hid : f.canId ∈ q.map Frame.canId
  · obtain ⟨hmem, hlen⟩ := fifoInsert_known_result (p := p) hid
    exact ⟨hmem, hlen.trans_le (Nat.le_succ _)⟩
  · rcases hq.lt_or_eq with hfree | hfull
    · rw [fifoInsert_stored hid hfree]
      simp
    · cases hpolicy : p.policy with
      | reject => exact absurd ⟨hpolicy, hfull, hid⟩ h
      | evictOldest =>
        rw [fifoInsert_evicted hid hfull hpolicy]
        simp

/-- An identifier that no unread frame has is the key of no entry (I3). -/
theorem State.Inv.key_ne_of_unread {s : State} (hs : s.Inv) {id : Word} (hid : id ≠ idEmpty)
    (h : id ∉ s.unread.map Frame.canId) (k : Nat) (hk : k < s.params.capacity) : (s.entry k).key ≠ id := by
  rintro rfl
  obtain ⟨hp, hlive, hcan⟩ := hs.entryLive k hk hid
  exact h (List.mem_map.2 ⟨_, (State.mem_unread_iff hs _).2 ⟨_, hp, hlive, rfl⟩, hcan⟩)

/-- Settles O29: the first frame makes the identifier unread, and the second takes its place. -/
theorem latestFrameWins : Obligations.LatestFrameWins := by
  intro s r1 r2 hs hr1 hr2 hid haccepted
  obtain ⟨t, hexec, ht, hparams, hlookup, hunread, _⟩ := exec_rxFrame_unread hs hr1
  obtain ⟨u, hexec', hu, hparams', hlookup', hunread', _⟩ := exec_rxFrame_unread ht hr2
  have hfirst := fifoInsert_accepted (p := s.params) (q := s.unread) (f := frameOf s.params.rev r1)
    (s.unread_length ▸ hs.countLe) fun ⟨hpolicy, hfull, hnew⟩ =>
      haccepted ⟨hpolicy, s.unread_length ▸ hfull, hs.key_ne_of_unread (ne_idEmpty_of_valid hr1) hnew⟩
  rw [← hunread] at hfirst
  obtain ⟨hmem, hlen⟩ := hfirst
  have hknown : r2.canId ∈ t.unread.map Frame.canId := List.mem_map.2 ⟨_, hmem, hid⟩
  obtain ⟨hmem', hlen'⟩ := fifoInsert_known_result (p := t.params) (f := frameOf t.params.rev r2) hknown
  rw [← hunread'] at hmem' hlen'
  have hfound : u.lookupFrame r1.canId = some (frameOf t.params.rev r2) :=
    (State.lookupFrame_eq_some_iff hu _ _).2 ⟨hmem', hid.symm⟩
  refine ⟨u.answerLookup (u.lookupFrame r1.canId), frameOf t.params.rev r2, ?_, ?_, ?_, ?_⟩
  · rw [execAll_cons hexec, execAll_cons hexec']
    rfl
  · rw [hparams]
    exact frameOf_formed _ r2
  · rw [State.answerLookup_lookupOut, hfound, hlookup', hlookup]
  · rw [State.answerLookup_count, ← u.unread_length, ← s.unread_length]
    omega

/-! ### CAPACITY + 1 new identifiers (R142) -/

/-- Frames with identifiers different from each other and from the unread ones are all stored, while slots are free. -/
theorem execAll_rxFrame_stored (rs : List RxOperands) {s : State} (hs : s.Inv) (hvalid : ∀ r ∈ rs, ValidRx r)
    (hids : (s.unread.map Frame.canId ++ rs.map RxOperands.canId).Nodup)
    (hfree : s.unread.length + rs.length ≤ s.params.capacity) :
    ∃ t, execAll (rs.map .rxFrame) s = .next t ∧ t.unread = s.unread ++ rs.map (frameOf s.params.rev) ∧
      t.rxOut = s.rxOut ++ List.replicate rs.length 0#3 := by
  induction rs generalizing s with
  | nil => exact ⟨s, rfl, by simp, by simp⟩
  | cons r rs ih =>
    obtain ⟨hr, hrest⟩ := List.forall_mem_cons.1 hvalid
    have hnew : r.canId ∉ s.unread.map Frame.canId := fun hmem =>
      (List.nodup_append.1 hids).2.2 _ hmem _ (by simp) rfl
    have hlt : s.unread.length < s.params.capacity := by
      rw [List.length_cons] at hfree
      omega
    obtain ⟨t, hexec, ht, hparams, _, hunread, hcode⟩ := exec_rxFrame_unread hs hr
    rw [fifoInsert_stored (f := frameOf s.params.rev r) hnew hlt] at hunread hcode
    obtain ⟨u, hall, hunread', hcode'⟩ := ih ht hrest
      (by simpa [hunread, frameOf] using hids)
      (by rw [hunread, hparams, List.length_append]; simpa [Nat.add_assoc, Nat.add_comm] using hfree)
    refine ⟨u, ?_, ?_, ?_⟩
    · rw [List.map_cons, execAll_cons hexec, hall]
    · rw [hunread', hunread, hparams, List.map_cons, List.append_assoc, List.singleton_append]
    · rw [hcode', hcode, List.append_assoc, List.length_cons, List.replicate_succ]
      rfl

theorem resetWith_unread (p : Params) : (State.resetWith p).unread = [] :=
  (State.unread_eq_nil_iff _).2 rfl

/-- From reset, CAPACITY frames with different identifiers fill the buffer (R133). -/
theorem resetWith_filled {p : Params} (hp : p.Wf) {rs : List RxOperands} (hlen : rs.length = p.capacity)
    (hvalid : ∀ r ∈ rs, ValidRx r) (hids : (rs.map RxOperands.canId).Nodup) :
    ∃ t, execAll (rs.map .rxFrame) (State.resetWith p) = .next t ∧ t.Inv ∧ t.params = p ∧
      t.unread = rs.map (frameOf p.rev) ∧ t.rxOut = List.replicate p.capacity 0#3 := by
  have hs := resetWith_inv hp
  obtain ⟨t, hexec, hunread, hcode⟩ := execAll_rxFrame_stored rs hs hvalid
    (by rwa [resetWith_unread]) (by rw [resetWith_unread, List.length_nil, Nat.zero_add]; exact hlen.le)
  obtain ⟨ht, hparams⟩ := execAll_inv hs hexec
  rw [resetWith_unread] at hunread
  rw [hlen] at hcode
  exact ⟨t, hexec, ht, hparams, hunread, hcode⟩

theorem map_canId_frameOf (rev : FormatRev) (rs : List RxOperands) :
    (rs.map (frameOf rev)).map Frame.canId = rs.map RxOperands.canId := List.map_map

/-- Settles O30: CAPACITY frames fill the buffer, and the last finds it full. -/
theorem fullPolicyIsDeterministic : Obligations.FullPolicyIsDeterministic := by
  intro p first last mid hp hlen hvalid hids
  obtain ⟨hvalidFilled, hvalidLast⟩ := List.forall_mem_append.1 hvalid
  have hlast : ValidRx last := hvalidLast last (List.mem_singleton_self last)
  rw [List.map_append, List.nodup_append] at hids
  obtain ⟨hidsFilled, _, hdisjoint⟩ := hids
  have hnew : last.canId ∉ (first :: mid).map RxOperands.canId := fun hmem =>
    hdisjoint _ hmem _ (by simp) rfl
  have hfirst : first.canId ∉ mid.map RxOperands.canId := (List.nodup_cons.1 hidsFilled).1
  have hne : last.canId ≠ first.canId := fun h => hnew (by simp [h])
  obtain ⟨s, hfill, hs, rfl, hunread, hcodes⟩ :=
    resetWith_filled (rs := first :: mid) hp hlen hvalidFilled hidsFilled
  obtain ⟨t, hexec, ht, _, _, hunread', hcode⟩ := exec_rxFrame_unread hs hlast
  have hunreadNew : last.canId ∉ s.unread.map Frame.canId := by rwa [hunread, map_canId_frameOf]
  have hfull : s.unread.length = s.params.capacity := by rw [hunread, List.length_map]; exact hlen
  refine ⟨t, ?_, fun hpolicy => ?reject, fun hpolicy => ?evict⟩
  · rw [List.map_append, execAll_append hfill]
    exact execAll_cons hexec
  case reject =>
    rw [fifoInsert_rejected (f := frameOf s.params.rev last) hunreadNew hfull hpolicy] at hunread' hcode
    have hpresent : t.unread.map Frame.canId = (first :: mid).map RxOperands.canId := by
      rw [hunread', hunread, map_canId_frameOf]
    refine ⟨by rw [hcode, hcodes]; rfl, ?_, ?_⟩
    · rw [State.lookupFrame_isSome_iff ht, hpresent]
      exact List.mem_cons_self
    · rw [Bool.eq_false_iff, Ne, State.lookupFrame_isSome_iff ht, hpresent]
      exact hnew
  case evict =>
    rw [fifoInsert_evicted (f := frameOf s.params.rev last) hunreadNew hfull hpolicy] at hunread' hcode
    have hpresent : t.unread.map Frame.canId = mid.map RxOperands.canId ++ [last.canId] := by
      rw [hunread', hunread, List.map_append, List.map_cons, List.tail_cons, map_canId_frameOf]
      rfl
    refine ⟨by rw [hcode, hcodes]; rfl, ?_, ?_⟩
    · rw [Bool.eq_false_iff, Ne, State.lookupFrame_isSome_iff ht, hpresent, List.mem_append, List.mem_singleton]
      exact fun h => h.elim hfirst hne.symm
    · rw [State.lookupFrame_isSome_iff ht, hpresent]
      simp

end Sys2Proof.Machine
end

section
/-!
PROOFS of the family `42_host_port.md`. Which rows of the host port the block claims, and that the others change
nothing (R160, R168 to R193); the answer of a read cut or filled to n bytes (R161); and each claimed row as one state
update (R162 to R167).
-/

namespace Sys2Proof.Machine

/-! ### A decoded command meets its row's condition (R79) -/

theorem decodeHost_wf {rev : FormatRev} {w : BitVec 11} {ops : Operands} {i : Instr}
    (h : decodeHost rev w ops = .ok i) : i.wf rev = true := by
  unfold decodeHost at h
  split at h
  · cases h; exact decodeHostRead_wf ..
  · cases h; exact decodeHostWrite_wf ..
  · cases h

theorem decodeReceive_wf {rev : FormatRev} {w : BitVec 11} {ops : Operands} {i : Instr}
    (h : decodeReceive w ops = .ok i) : i.wf rev = true := by
  unfold decodeReceive at h
  split at h
  · split at h <;> cases h
    rfl
  · cases h

theorem decodeLookup_wf {rev : FormatRev} {w : BitVec 11} {ops : Operands} {i : Instr}
    (h : decodeLookup w ops = .ok i) : i.wf rev = true := by
  unfold decodeLookup at h
  split at h
  · split at h <;> cases h
    rfl
  · cases h

theorem decode_wf {rev : FormatRev} {w : BitVec 11} {ops : Operands} {i : Instr}
    (h : decode rev w ops = .ok i) : i.wf rev = true := by
  unfold decode at h
  split at h
  · exact decodeHost_wf h
  · split at h
    · exact decodeReceive_wf h
    · split at h
      · exact decodeLookup_wf h
      · cases h

/-! ### The claim (R160) -/

/-- What a row of the host port answers in `claim` (R162 to R193); the other ports have no claim. -/
def hostClaim : Instr → Option Bool
  | .rdFramesCount _ | .wrFramesCount _ | .wrSendFrame _ | .rdSendStatus _ | .rdReceiveFrame _
  | .wrReceiveFrame _ => some true
  | .rxFrame _ | .lookup _ => none
  | _ => some false

/-- A row that the block does not claim answers so, and changes nothing (R160). -/
theorem exec_unclaimed {i : Instr} {s : State} (hclaim : hostClaim i = some false)
    (hwf : i.wf s.params.rev = true) : exec i s = .next s.leaveUnclaimed := by
  have hrow : answersHostOnly i = true ∧ ∀ count status, hostOnlyAnswer count status i = ⟨false, none⟩ := by
    cases i with
    | rdFramesCount | wrFramesCount | wrSendFrame | rdSendStatus | rdReceiveFrame | wrReceiveFrame | rxFrame
    | lookup => cases hclaim
    | _ => exact ⟨rfl, fun _ _ => rfl⟩
  obtain ⟨hhost, hanswer⟩ := hrow
  rw [exec_hostOnly hhost hwf, hanswer]
  rfl

theorem exec_rdSendStatus {s : State} (hrev : s.params.rev = .rev2) (n : Nat) :
    exec (.rdSendStatus n) s = .next (s.respond (wordBytes s.sendStatus) n) :=
  exec_hostOnly rfl (by rw [hrev]; rfl)

theorem exec_wrSendFrame {s : State} (hrev : s.params.rev = .rev2) (payload : List Byte) :
    exec (.wrSendFrame payload) s = .next (s.sendFrame payload).acceptWrite := by
  simp only [exec, execWrSendFrame, hrev]

@[simp] theorem State.sendFrame_hostOut (s : State) (payload : List Byte) :
    (s.sendFrame payload).hostOut = s.hostOut := by
  rcases s.sendFrame_cases payload with ⟨f, _, hsend⟩ | ⟨k, _, hsend⟩ <;> rw [hsend] <;> rfl

/-- A row that the block claims answers so, once. -/
theorem exec_claimed {i : Instr} {s : State} (hclaim : hostClaim i = some true) (hwf : i.wf s.params.rev = true) :
    ∃ t data, exec i s = .next t ∧ t.hostOut = s.hostOut ++ [⟨true, data⟩] := by
  cases i with
  | wrSendFrame payload =>
    have hrev : s.params.rev = .rev2 := by simpa [Instr.wf] using hwf
    exact ⟨_, _, exec_wrSendFrame hrev payload, congrArg (· ++ _) (s.sendFrame_hostOut payload)⟩
  | rdSendStatus n =>
    have hrev : s.params.rev = .rev2 := by simpa [Instr.wf] using hwf
    exact ⟨_, _, exec_rdSendStatus hrev n, rfl⟩
  | rdReceiveFrame n => exact ⟨_, _, rfl, congrArg (· ++ _) s.takeNext_sameOutside.hostOut⟩
  | rdFramesCount | wrFramesCount | wrReceiveFrame => exact ⟨_, _, rfl, rfl⟩
  | _ => cases hclaim

/-- Is the address one that the block claims (R160)? -/
def claimsAddress (rev : FormatRev) (addr : Byte) : Bool :=
  decide (addr = 0x02 ∨ addr = 0x40 ∨ (addr = 0x30 ∧ rev = .rev2))

/-- Of the rows tried in turn, three addresses' are claimed. -/
theorem claimsAddress_eq_ite (rev : FormatRev) (addr : Byte) :
    some (claimsAddress rev addr) =
      if addr = regFramesCount then some true
      else if addr = regSendFrame then (if rev = .rev2 then some true else some false)
      else if addr = regReceiveFrame then some true else some false := by
  unfold claimsAddress regFramesCount regSendFrame regReceiveFrame
  split_ifs <;> simp_all

theorem hostClaim_decodeHostRead (rev : FormatRev) (addr : Byte) (n : Nat) :
    hostClaim (decodeHostRead rev addr n) = some (claimsAddress rev addr) := by
  simp only [claimsAddress_eq_ite, decodeHostRead, apply_ite hostClaim]
  simp only [hostClaim, ite_self]

theorem hostClaim_decodeHostWrite (rev : FormatRev) (addr : Byte) (payload : List Byte) :
    hostClaim (decodeHostWrite rev addr payload) = some (claimsAddress rev addr) := by
  simp only [claimsAddress_eq_ite, decodeHostWrite, apply_ite hostClaim]
  simp only [hostClaim, ite_self]

/-- A host event runs a row that the revision has, and its address alone says whether that row is claimed. -/
theorem applyEvent_host {s : State} {e : HostEvent} {addr : Byte}
    (h : (∃ n, e = .read addr n) ∨ (∃ payload, e = .write addr payload)) :
    ∃ i, applyEvent (.host e) s = exec i s ∧ i.wf s.params.rev = true ∧
      hostClaim i = some (claimsAddress s.params.rev addr) := by
  rcases h with ⟨n, rfl⟩ | ⟨payload, rfl⟩
  · refine ⟨_, ?_, decodeHostRead_wf _ addr n, hostClaim_decodeHostRead _ addr n⟩
    simp only [applyEvent, eventCommand, hostCommand, runCommand, decode_hostRead]
  · refine ⟨_, ?_, decodeHostWrite_wf _ addr payload, hostClaim_decodeHostWrite _ addr payload⟩
    simp only [applyEvent, eventCommand, hostCommand, runCommand, decode_hostWrite]

/-- Settles O37: the row of the address is run, claimed or not. -/
theorem hostEventsAreClaimedByAddress : Obligations.HostEventsAreClaimedByAddress := by
  intro s e addr he
  obtain ⟨i, happly, hwf, hclaim⟩ := applyEvent_host (s := s) he
  rw [happly]
  cases haddr : claimsAddress s.params.rev addr with
  | true =>
    rw [haddr] at hclaim
    obtain ⟨t, data, hexec, hhost⟩ := exec_claimed hclaim hwf
    exact ⟨t, ⟨true, data⟩, hexec, hhost, haddr.symm, nofun⟩
  | false =>
    rw [haddr] at hclaim
    exact ⟨_, ⟨false, none⟩, exec_unclaimed hclaim hwf, rfl, haddr.symm, fun _ => ⟨rfl, rfl⟩⟩

/-! ### The rows that are not claimed (R168 to R193) -/

theorem exec_of_mem_unclaimed {l : List Instr} {s : State}
    (hl : ∀ j ∈ l, hostClaim j = some false ∧ j.wf s.params.rev = true) {i : Instr} (hi : i ∈ l) :
    exec i s = .next s.leaveUnclaimed := by
  obtain ⟨hclaim, hwf⟩ := hl i hi
  exact exec_unclaimed hclaim hwf

/-- Settles O46: each row of the list is one that is not claimed, with no condition. -/
theorem dispatcherRegistersAreUnclaimed : Obligations.DispatcherRegistersAreUnclaimed :=
  fun _ _ _ _ hi => exec_of_mem_unclaimed (by simp [hostClaim, Instr.wf]) hi

/-- Settles O47: each row of the list is one that is not claimed, with no condition. -/
theorem filterRegistersAreUnclaimed : Obligations.FilterRegistersAreUnclaimed :=
  fun _ _ _ _ hi => exec_of_mem_unclaimed (by simp [hostClaim, Instr.wf]) hi

/-- Settles O48: the rows' conditions of R79 hold, the revision or that no row names the address. -/
theorem otherAddressesAreUnclaimed : Obligations.OtherAddressesAreUnclaimed := by
  refine fun s n payload => ⟨fun hrev => ?rev1, fun addr haddr => ?unnamed⟩
  case rev1 => exact ⟨exec_unclaimed rfl (by rw [hrev]; rfl), exec_unclaimed rfl (by rw [hrev]; rfl)⟩
  case unnamed =>
    have hn : named addr = false := Bool.eq_false_iff.2 (mt (named_iff addr).1 haddr)
    exact ⟨exec_unclaimed rfl (congrArg not hn), exec_unclaimed rfl (congrArg not hn)⟩

/-! ### The answer of a claimed read (R161) -/

theorem getD_eq_dite (w : List Byte) (i : Nat) : w.getD i 0 = if h : i < w.length then w[i] else 0x00 := by
  split
  · exact List.getD_eq_getElem w 0 ‹_›
  · exact List.getD_eq_default w 0 (Nat.le_of_not_lt ‹_›)

/-- RD_RECEIVE_FRAME as take-next and one answer: take-next leaves the answers given before (R166). -/
theorem exec_rdReceiveFrame (s : State) (n : Nat) :
    exec (.rdReceiveFrame n) s =
      .next { s.takeNext.1 with
              hostOut := s.hostOut ++ [⟨true, some (fit (receiveResponse s.params.rev s.takeNext.2) n)⟩] } := by
  rw [← s.takeNext_sameOutside.hostOut]
  rfl

/-- Settles O38: each read's bytes and next state are given before `n` is. -/
theorem readsAreCutOrFilledToLength : Obligations.ReadsAreCutOrFilledToLength := by
  refine ⟨fun w n => ⟨fit_length w n, fun i hi => ?_⟩, fun s => ⟨[s.count], fun n => rfl⟩,
    fun s hrev => ⟨wordBytes s.sendStatus, exec_rdSendStatus hrev⟩,
    fun s => ⟨receiveResponse s.params.rev s.takeNext.2, s.takeNext.1, exec_rdReceiveFrame s⟩⟩
  rw [fit_getElem? w hi, getD_eq_dite]

/-! ### REG_FRAMES_COUNT and the read-only registers (R162, R163, R167) -/

/-- Settles O39: the answer is `fit` of the one byte `count`. -/
theorem countReadAnswersCount : Obligations.CountReadAnswersCount := by
  refine fun s n => ⟨fit [s.count] n, fit_length .., fun i hi => ?_, rfl⟩
  rw [fit_getElem? _ hi]
  cases i <;> rfl

/-- Settles O40: both writes are only accepted. -/
theorem readOnlyRegistersIgnoreWrites : Obligations.ReadOnlyRegistersIgnoreWrites :=
  fun _ _ => ⟨exec_hostOnly rfl rfl, exec_hostOnly rfl rfl⟩

/-! ### REG_SEND_FRAME (R164, R165) -/

/-- A REG_SEND_FRAME write that does not decode (R164). -/
theorem exec_wrSendFrame_error {s : State} {payload : List Byte} {k : ErrorKind} (hrev : s.params.rev = .rev2)
    (h : decodeR2 payload = .error k) :
    exec (.wrSendFrame payload) s = .next (s.setSendStatus respRejected).acceptWrite := by
  rw [exec_wrSendFrame hrev]
  simp only [State.sendFrame, h]

theorem decode_rev1_ne_wrSendFrame (w : BitVec 11) (ops : Operands) (payload : List Byte) :
    decode .rev1 w ops ≠ .ok (.wrSendFrame payload) := fun h => by cases decode_wf h

theorem decode_rev1_ne_rdSendStatus (w : BitVec 11) (ops : Operands) (n : Nat) :
    decode .rev1 w ops ≠ .ok (.rdSendStatus n) := fun h => by cases decode_wf h

/-- Settles O41: what the write does with what `decodeR2` answers. -/
theorem sendFrameEmitsOrRejects : Obligations.SendFrameEmitsOrRejects :=
  ⟨fun _ _ hrev => ⟨fun _ h => exec_wrSendFrame_ok hrev h, fun _ h => exec_wrSendFrame_error hrev h⟩,
    decode_rev1_ne_wrSendFrame⟩

theorem wordBytes_getD (x : Word) (i : Nat) :
    (wordBytes x).getD i 0 =
      if i = 0 then x.extractLsb' 24 8 else if i = 1 then x.extractLsb' 16 8
      else if i = 2 then x.extractLsb' 8 8 else if i = 3 then x.extractLsb' 0 8 else 0x00 := by
  rcases i with _ | _ | _ | _ | i <;> rfl

/-- Settles O42: the answer is `fit` of the four bytes of SEND_STATUS. -/
theorem statusReadAnswersSendStatus : Obligations.StatusReadAnswersSendStatus := by
  refine ⟨fun s n hrev => ⟨fit (wordBytes s.sendStatus) n, fit_length .., fun i hi => ?_,
    exec_rdSendStatus hrev n⟩, decode_rev1_ne_rdSendStatus⟩
  rw [fit_getElem? _ hi, wordBytes_getD]

/-! ### RD_RECEIVE_FRAME (R166) -/

theorem receiveResponse_of_encode {rev : FormatRev} {f : Frame} {e : List Byte}
    (h : encodeFrame rev (wireOf f) = .ok e) : receiveResponse rev (.ok f) = e := by
  simp only [receiveResponse, h]

/-- The encode-error arm of R166. -/
theorem receiveResponse_of_long {rev : FormatRev} {f : Frame} (h : 8 < f.dataLength.toNat) :
    receiveResponse rev (.ok f) = wordBytes respRejected := by
  simp only [receiveResponse, encodeFrame_error (rev := rev) (f := wireOf f) h]

theorem exec_rdReceiveFrame_empty {s : State} (h : s.count = 0) (n : Nat) :
    exec (.rdReceiveFrame n) s =
      .next { s with hostOut := s.hostOut ++ [⟨true, some (fit (wordBytes respNotReady) n)⟩] } := by
  rw [exec_rdReceiveFrame, State.takeNext_empty h]
  rfl

theorem exec_rdReceiveFrame_taken {s : State} (h : s.count ≠ 0) (n : Nat) :
    exec (.rdReceiveFrame n) s =
      .next { s.removeHead with
              hostOut := s.hostOut ++
                [⟨true, some (fit (receiveResponse s.params.rev (.ok (s.slot s.head.toNat))) n)⟩] } := by
  rw [exec_rdReceiveFrame, State.takeNext_taken h]

@[simp] theorem State.freeHeadEntry_slots (s : State) : s.freeHeadEntry.slots = s.slots := by
  unfold State.freeHeadEntry
  cases s.camFind (s.slot s.head.toNat).canId <;> rfl

/-- `remove_head` frees slot `head`, with or without an index entry for it (R139). -/
theorem State.removeHead_slots (s : State) :
    s.removeHead.slots = s.slots.set s.head.toNat (markFree (s.slot s.head.toNat)) :=
  congrArg (·.set s.head.toNat (markFree (s.slot s.head.toNat))) s.freeHeadEntry_slots

/-- The oldest unread frame has bytes: its dataLength is legal (I5). -/
theorem State.Inv.encodeFrame_head {s : State} (hs : s.Inv) (hc : s.count ≠ 0) :
    ∃ e, encodeFrame s.params.rev (wireOf (s.slot s.head.toNat)) = .ok e := by
  obtain ⟨_, hlength, _⟩ := hs.liveStorable _ hs.headLt (hs.headLive hc)
  exact encodeFrame_ok hlength

/-- Settles O31: the two cases of take-next, and in the second the two of encode. -/
theorem receiveReadConsumesTheOldest : Obligations.ReceiveReadConsumesTheOldest := by
  refine fun s n => ⟨fun hc => ?empty, fun hc hlong => ?long, fun hs hc => ?taken⟩
  case empty => exact exec_rdReceiveFrame_empty hc n
  case long =>
    rw [exec_rdReceiveFrame_taken hc, receiveResponse_of_long hlong]
    exact ⟨_, rfl, s.removeHead_slots, rfl, rfl⟩
  case taken =>
    obtain ⟨e, he⟩ := hs.encodeFrame_head hc
    obtain ⟨k, hk, _, _, hkey, hremove⟩ := State.removeHead_eq hs hc
    refine ⟨e, k, BitVec.ofNat 8 (s.ringPos 1), he, hk, hkey, hs.toNat_ofNat_ringPos 1, ?_⟩
    rw [exec_rdReceiveFrame_taken hc, receiveResponse_of_encode he, hremove]
    rfl

end Sys2Proof.Machine
end

section
/-!
PROOFS of the family `43_can_ports.md`. TX_EMIT happens only inside an accepted WR_SEND_FRAME (R201).
-/

namespace Sys2Proof.Machine

/-- The data bytes read for one `dataLength` are zero beyond it (R106, R107). -/
theorem dataFrom_canonical (s : List Byte) (at0 : Nat) (dl : Byte) : Canonical dl (dataFrom s at0 dl) := by
  intro i hi
  rw [dataFrom_get, if_neg (Nat.not_lt.2 hi)]

/-- A frame that revision 2 decodes is canonical (R107). -/
theorem decodeR2_canonical {s : List Byte} {f : WireFrame} (h : decodeR2 s = .ok f) :
    Canonical f.dataLength f.data := by
  obtain ⟨_, _, _, rfl⟩ := decodeR2_ok h
  exact dataFrom_canonical s 5 (byteAt s 4)

/-- Settles O45: of the cases of a command, only an accepted send writes the transmit port. -/
theorem onlySendFrameEmits : Obligations.OnlySendFrameEmits := by
  intro i s t h
  rcases exec_next_cases h with ⟨_, a, rfl⟩ | ⟨payload, hi, hrev, rfl⟩ | ⟨n, _, rfl⟩ | ⟨r, _, rfl⟩ | ⟨c, _, rfl⟩
  · exact .inl rfl
  · rcases s.sendFrame_cases payload with ⟨f, hdec, hsend⟩ | ⟨k, _, hsend⟩ <;> rw [hsend]
    · exact .inr ⟨payload, f, hi, hrev, hdec, decodeR2_canonical hdec, rfl⟩
    · exact .inl rfl
  · exact .inl s.takeNext_sameOutside.txOut
  · exact .inl (s.insert_sameOutside r).txOut
  · exact .inl rfl

end Sys2Proof.Machine
end

section
/-!
PROOFS of the family `60_exceptions.md`. The block never traps (R220, R222), and the receive port's outcome code
is written by RX_FRAME alone and stays in range (R224).
-/

namespace Sys2Proof.Machine

/-! ### The receive port's outcome code (R224) -/

/-- The outcome codes run from 0 to 5. -/
theorem rxCode_toNat_le (o : RxOutcome) : (rxCode o).toNat ≤ 5 := by cases o <;> decide

/-- A send does not drive the receive port (R164). -/
@[simp] theorem State.sendFrame_rxOut (s : State) (payload : List Byte) :
    (s.sendFrame payload).rxOut = s.rxOut := by
  rcases s.sendFrame_cases payload with ⟨f, _, hsend⟩ | ⟨k, _, hsend⟩ <;> rw [hsend] <;> rfl

/-- RX_FRAME drives the receive port once, with the code of what insert did (R200). -/
theorem exec_rxFrame_rxOut {r : RxOperands} {s t : State} (h : exec (.rxFrame r) s = .next t) :
    t.rxOut = s.rxOut ++ [rxCode (s.insert r).2] := by
  cases h
  rw [State.driveRx_rxOut, (s.insert_sameOutside r).rxOut]

/-- A command other than RX_FRAME does not drive the receive port. -/
theorem exec_rxOut_of_ne_rxFrame {i : Instr} {s t : State} (h : exec i s = .next t)
    (hi : ∀ r, i ≠ .rxFrame r) : t.rxOut = s.rxOut := by
  rcases exec_next_cases h with ⟨_, a, rfl⟩ | ⟨payload, _, _, rfl⟩ | ⟨n, _, rfl⟩ | ⟨r, hr, _⟩ | ⟨c, _, rfl⟩
  · rfl
  · exact s.sendFrame_rxOut payload
  · exact s.takeNext_sameOutside.rxOut
  · exact absurd hr (hi r)
  · rfl

/-- Settles O28: RX_FRAME drives the port with the code of what insert did, and no other command drives it. -/
theorem rxOutcomeCodesStayInRange : Obligations.RxOutcomeCodesStayInRange := by
  intro i s t h
  refine ⟨exec_rxOut_of_ne_rxFrame h, ?_⟩
  rintro r rfl
  exact ⟨rxCode (s.insert r).2, rxCode_toNat_le _, exec_rxFrame_rxOut h⟩

/-! ### No trap (R220, R222) -/

/-- Settles O54: a step waits or applies an event, and an event is a reset or a well-formed command, which
completes in every state. -/
theorem everyStepAnswersANextState : Obligations.EveryStepAnswersANextState := by
  intro s
  rcases step_cases s with ⟨_, hidle⟩ | ⟨e, u, _, happly⟩
  · exact ⟨s, hidle⟩
  · rw [happly]
    exact applyEvent_completes e u

end Sys2Proof.Machine
end

section
/-!
PROOFS of the family `70_reset_and_hazards.md`. The parameters never change (R251); SEND_STATUS over a run of
commands (R257); and a positive `count` as a promise of that many frames (R255).
-/

namespace Sys2Proof.Machine

/-! ### The parameters (R251) -/

/-- Settles O22. -/
theorem parametersNeverChange : Obligations.ParametersNeverChange :=
  ⟨fun _ => rfl, fun _ _ => step_params, fun _ _ _ => exec_params, State.deliver_params⟩

/-! ### Runs of commands, one command at a time -/

theorem execAll_cons_iff {i : Instr} {is : List Instr} {s t : State} :
    execAll (i :: is) s = .next t ↔ ∃ u, exec i s = .next u ∧ execAll is u = .next t := by
  simp only [execAll]
  cases exec i s <;> simp

/-! ### SEND_STATUS over a run (R164, R257) -/

/-- What a REG_SEND_FRAME write with this payload leaves in SEND_STATUS (R164). -/
def sendResult (payload : List Byte) : Word :=
  match decodeR2 payload with
  | .ok _ => sendOk
  | .error _ => respRejected

theorem State.sendFrame_sendStatus (s : State) (payload : List Byte) :
    (s.sendFrame payload).sendStatus = sendResult payload := by
  unfold sendResult
  rcases s.sendFrame_cases payload with ⟨f, hdec, hsend⟩ | ⟨k, hdec, hsend⟩ <;> rw [hsend, hdec] <;> rfl

theorem exec_wrSendFrame_next {payload : List Byte} {s t : State} (h : exec (.wrSendFrame payload) s = .next t) :
    t = (s.sendFrame payload).acceptWrite := by
  simp only [exec, execWrSendFrame] at h
  split at h <;> cases h
  rfl

/-- SEND_STATUS is written by REG_SEND_FRAME writes alone (R26, R164). -/
theorem exec_sendStatus {i : Instr} {s t : State} (h : exec i s = .next t) :
    t.sendStatus = (sendPayload i).elim s.sendStatus sendResult := by
  cases i with
  | wrSendFrame payload =>
    rw [exec_wrSendFrame_next h]
    exact s.sendFrame_sendStatus payload
  | _ =>
    obtain ⟨_, hstatus⟩ := onlyInsertAndTakeNextChangeTheBuffer _ s t h
    exact hstatus nofun

/-- Over a run SEND_STATUS is the result of its last REG_SEND_FRAME write, if it has one. -/
theorem execAll_sendStatus {is : List Instr} {s t : State} (h : execAll is s = .next t) :
    t.sendStatus = (is.filterMap sendPayload).getLast?.elim s.sendStatus sendResult := by
  induction is generalizing s with
  | nil => cases h; rfl
  | cons i is ih =>
    obtain ⟨u, hi, hrest⟩ := execAll_cons_iff.1 h
    rw [ih hrest, exec_sendStatus hi, List.filterMap_cons]
    cases sendPayload i with
    | none => rfl
    | some payload =>
      rw [List.getLast?_cons]
      cases (is.filterMap sendPayload).getLast? <;> rfl

/-- Settles O44, by induction on the commands (`execAll_sendStatus`). -/
theorem sendStatusIsTheLastSendResult : Obligations.SendStatusIsTheLastSendResult := by
  intro is s t h
  rw [execAll_sendStatus h]
  cases (is.filterMap sendPayload).getLast? <;> rfl

/-! ### What one command can take from the unread frames (R132 to R136) -/

/-- Insert loses no frame without storing another. -/
theorem length_le_fifoInsert (p : Params) (q : List Frame) (f : Frame) :
    q.length ≤ (fifoInsert p q f).1.length := by
  unfold fifoInsert
  split
  case isTrue => simp
  case isFalse =>
    split
    case isTrue => simp
    case isFalse =>
      cases p.policy with
      | reject => exact Nat.le_refl _
      | evictOldest => simp only [List.length_append, List.length_tail, List.length_singleton]; omega

theorem length_le_fifoRx (p : Params) (q : List Frame) (r : RxOperands) :
    q.length ≤ (fifoRx p q r).1.length := by
  unfold fifoRx
  split
  · exact Nat.le_refl _
  · split
    · exact Nat.le_refl _
    · exact length_le_fifoInsert p q _

theorem length_le_fifoTake_succ (q : List Frame) : q.length ≤ (fifoTake q).1.length + 1 := by
  cases q with
  | nil => exact Nat.zero_le _
  | cons f q => exact Nat.le_refl _

/-- A REG_RECEIVE_FRAME read takes at most one unread frame, and no other command makes them fewer. -/
theorem exec_unread_length {i : Instr} {s t : State} (hs : s.Inv) (h : exec i s = .next t) :
    s.unread.length ≤ t.unread.length + if isReceiveRead i then 1 else 0 := by
  cases i with
  | rxFrame r =>
    obtain ⟨u, hexec, hunread, _⟩ := rxRefinesTheUnreadList s r hs
    cases h.symm.trans hexec
    rw [hunread]
    exact length_le_fifoRx ..
  | rdReceiveFrame n =>
    obtain ⟨u, hexec, hunread, _⟩ := exec_rdReceiveFrame_unread hs n
    cases h.symm.trans hexec
    rw [hunread]
    exact length_le_fifoTake_succ _
  | _ =>
    obtain ⟨hbuffer, _⟩ := onlyInsertAndTakeNextChangeTheBuffer _ s t h
    obtain ⟨_, _, _, hcount⟩ := hbuffer nofun nofun
    rw [s.unread_length, t.unread_length, hcount]
    exact Nat.le_add_right ..

/-- A run takes at most one unread frame for each of its REG_RECEIVE_FRAME reads. -/
theorem execAll_unread_length {is : List Instr} {s t : State} (hs : s.Inv) (h : execAll is s = .next t) :
    s.unread.length ≤ t.unread.length + is.countP isReceiveRead := by
  induction is generalizing s with
  | nil => cases h; exact Nat.le_refl _
  | cons i is ih =>
    obtain ⟨u, hi, hrest⟩ := execAll_cons_iff.1 h
    have hfirst := exec_unread_length hs hi
    have hothers := ih (exec_inv hs hi) hrest
    rw [List.countP_cons]
    omega

/-! ### The bytes of an unread frame (R78, R166, R255) -/

theorem wordBytes_injective : Function.Injective wordBytes := by
  intro x y h
  simp only [wordBytes, List.cons.injEq, and_true] at h
  obtain ⟨h0, h1, h2, h3⟩ := h
  rw [← wordOfBytes_wordBytes x, h0, h1, h2, h3, wordOfBytes_wordBytes]

/-- The bytes of a storable frame decode, and do not start with a sentinel (R76, R78). -/
theorem encodeFrame_storable {rev : FormatRev} {f : Frame} {e : List Byte} (hf : Storable rev f)
    (he : encodeFrame rev (wireOf f) = .ok e) :
    e.length = frameBytes rev ∧ (∃ g, decodeFrame rev e = .ok g) ∧
      e.take 4 ≠ wordBytes respRejected ∧ e.take 4 ≠ wordBytes respNotReady := by
  obtain ⟨_, hlength, _, hrejected, hnotReady, hflags⟩ := hf
  obtain ⟨e', he', hdec⟩ := decodeFrame_encodeFrame rev (f := wireOf f) hlength hflags
  cases he.symm.trans he'
  rw [encodeFrame_take he]
  exact ⟨encodeFrame_length he, ⟨_, hdec⟩, wordBytes_injective.ne hrejected, wordBytes_injective.ne hnotReady⟩

theorem State.Inv.storable_unread {s : State} (hs : s.Inv) {f : Frame} (hf : f ∈ s.unread) :
    Storable s.params.rev f := by
  obtain ⟨p, hp, hlive, rfl⟩ := (State.mem_unread_iff hs f).1 hf
  exact hs.liveStorable p hp hlive

/-! ### A positive count is a promise (R255) -/

/-- Settles O36: the reads of the run leave a frame unread, and the next read answers the bytes of the oldest. -/
theorem positiveCountIsAPromise : Obligations.PositiveCountIsAPromise := by
  intro s is n hs hwf hreads
  obtain ⟨t, hrun⟩ := execAll_completes hwf
  obtain ⟨ht, hparams⟩ := execAll_inv hs hrun
  have hleft : 0 < t.unread.length := by
    have hcount := execAll_unread_length hs hrun
    rw [s.unread_length] at hcount
    omega
  obtain ⟨f, q, hunread⟩ := List.exists_cons_of_length_pos hleft
  obtain ⟨_, htake, _⟩ := readsRefineTheUnreadList t ht
  obtain ⟨u, e, hread, _, hencode, hanswer⟩ := htake n f q hunread
  have hstorable := ht.storable_unread (f := f) (by simp [hunread])
  obtain ⟨hlength, ⟨g, hdecode⟩, hrejected, hnotReady⟩ := encodeFrame_storable hstorable hencode
  rw [← hparams]
  exact ⟨t, u, e, g, hrun, hread, hanswer, hlength, hdecode, hrejected, hnotReady⟩

end Sys2Proof.Machine
end

section
/-!
PROOFS of the family 'other'. Words and commands are in bijection (R71, R79); a step runs the decoded command, and a
Reset() event the reset values (R34, R250); a command answers its own port alone (R40 to R44); the invalid operands of
RX_FRAME (R131); and the rows that an instance does not have (R79).
-/

namespace Sys2Proof.Machine

/-! ### From a command to its word and back (R79) -/

open Laws in
/-- Every row of the opcode map has its round trip. -/
theorem encode_roundTrip : ∀ i : Instr, RoundTrip.Statement i
  | .rdFramesCount n => RoundTrip.rdFramesCount n
  | .wrFramesCount payload => RoundTrip.wrFramesCount payload
  | .wrSendFrame payload => RoundTrip.wrSendFrame payload
  | .rdSendStatus n => RoundTrip.rdSendStatus n
  | .rdReceiveFrame n => RoundTrip.rdReceiveFrame n
  | .wrReceiveFrame payload => RoundTrip.wrReceiveFrame payload
  | .rdI2cAddress n => RoundTrip.rdI2cAddress n
  | .wrI2cAddress payload => RoundTrip.wrI2cAddress payload
  | .rdCanBaudRate n => RoundTrip.rdCanBaudRate n
  | .wrCanBaudRate payload => RoundTrip.wrCanBaudRate payload
  | .rdI2cAddressSet n => RoundTrip.rdI2cAddressSet n
  | .wrI2cAddressSet payload => RoundTrip.wrI2cAddressSet payload
  | .rdMask0 n => RoundTrip.rdMask0 n
  | .wrMask0 payload => RoundTrip.wrMask0 payload
  | .rdMask1 n => RoundTrip.rdMask1 n
  | .wrMask1 payload => RoundTrip.wrMask1 payload
  | .rdFilt0 n => RoundTrip.rdFilt0 n
  | .wrFilt0 payload => RoundTrip.wrFilt0 payload
  | .rdFilt1 n => RoundTrip.rdFilt1 n
  | .wrFilt1 payload => RoundTrip.wrFilt1 payload
  | .rdFilt2 n => RoundTrip.rdFilt2 n
  | .wrFilt2 payload => RoundTrip.wrFilt2 payload
  | .rdFilt3 n => RoundTrip.rdFilt3 n
  | .wrFilt3 payload => RoundTrip.wrFilt3 payload
  | .rdFilt4 n => RoundTrip.rdFilt4 n
  | .wrFilt4 payload => RoundTrip.wrFilt4 payload
  | .rdFilt5 n => RoundTrip.rdFilt5 n
  | .wrFilt5 payload => RoundTrip.wrFilt5 payload
  | .rdUnclaimed30 n => RoundTrip.rdUnclaimed30 n
  | .wrUnclaimed30 payload => RoundTrip.wrUnclaimed30 payload
  | .rdUnclaimed addr n => RoundTrip.rdUnclaimed addr n
  | .wrUnclaimed addr payload => RoundTrip.wrUnclaimed addr payload
  | .rxFrame r => RoundTrip.rxFrame r
  | .lookup canId => RoundTrip.lookup canId

/-- Settles O2, row by row of the opcode map. -/
theorem encodedCommandDecodesToItself : Obligations.EncodedCommandDecodesToItself :=
  fun rev i hwf => encode_roundTrip i rev hwf

/-- Settles O1: each word is the one that its row's command encodes to. -/
theorem opcodeMapWordsDecode : Obligations.OpcodeMapWordsDecode :=
  ⟨encodedCommandDecodesToItself .rev1 (.rdFramesCount 1) rfl,
    encodedCommandDecodesToItself .rev2 (.wrSendFrame [7]) rfl,
    encodedCommandDecodesToItself .rev1 (.wrUnclaimed30 [7]) rfl,
    encodedCommandDecodesToItself .rev2 (.rdSendStatus 4) rfl,
    encodedCommandDecodesToItself .rev1 (.rdUnclaimed30 4) rfl,
    encodedCommandDecodesToItself .rev2 (.rdReceiveFrame 14) rfl,
    encodedCommandDecodesToItself .rev1 (.wrI2cAddressSet [0x5A]) rfl,
    encodedCommandDecodesToItself .rev1 (.rdMask1 0) rfl,
    encodedCommandDecodesToItself .rev2 (.wrFilt5 []) rfl,
    encodedCommandDecodesToItself .rev2 (.rdUnclaimed 0x77 1) rfl,
    encodedCommandDecodesToItself .rev2 (.lookup 0x123) rfl⟩

/-! ### From a word to its command and back (R71, R79, R80) -/

theorem wordAddr_toNat (w : BitVec 11) : (wordAddr w).toNat = w.toNat % 0x100 :=
  BitVec.extractLsb'_toNat ..

theorem hostReadWord_toNat (addr : Byte) : (hostReadWord addr).toNat = 0x100 + addr.toNat := by
  have haddr : addr.toNat < 2 ^ 8 := addr.isLt
  rw [hostReadWord, BitVec.toNat_or, BitVec.toNat_setWidth_of_le (by decide)]
  exact (Nat.two_pow_add_eq_or_of_lt haddr 1).symm

theorem hostWriteWord_toNat (addr : Byte) : (hostWriteWord addr).toNat = addr.toNat := by
  rw [hostWriteWord, BitVec.zero_or, BitVec.toNat_setWidth_of_le (by decide)]

/-- The fields PORT, DIR and ADDR are the whole of a host word (R71). -/
theorem hostReadWord_wordAddr {w : BitVec 11} (hport : wordPort w = 0) (hdir : wordDir w = true) :
    hostReadWord (wordAddr w) = w := by
  have hp : w.toNat / 0x200 = 0 := (wordPort_eq_iff w 0).1 hport
  have hd : w.toNat / 0x100 % 2 = 1 := of_decide_eq_true ((wordDir_eq w).symm.trans hdir)
  apply BitVec.eq_of_toNat_eq
  rw [hostReadWord_toNat, wordAddr_toNat]
  omega

theorem hostWriteWord_wordAddr {w : BitVec 11} (hport : wordPort w = 0) (hdir : wordDir w = false) :
    hostWriteWord (wordAddr w) = w := by
  have hp : w.toNat / 0x200 = 0 := (wordPort_eq_iff w 0).1 hport
  have hd : ¬ w.toNat / 0x100 % 2 = 1 := of_decide_eq_false ((wordDir_eq w).symm.trans hdir)
  apply BitVec.eq_of_toNat_eq
  rw [hostWriteWord_toNat, wordAddr_toNat]
  omega

/-- The row of an address, encoded, is the host word of that address, whether a row names it or not (R79). -/
theorem encode_decodeHostRow (rev : FormatRev) (addr : Byte) (n : Nat) (payload : List Byte) :
    encode (decodeHostRead rev addr n) = (hostReadWord addr, .hr n) ∧
      encode (decodeHostWrite rev addr payload) = (hostWriteWord addr, .hw payload) := by
  cases hnamed : named addr with
  | false =>
    rw [decodeHostRead_unnamed rev hnamed, decodeHostWrite_unnamed rev hnamed]
    exact ⟨rfl, rfl⟩
  | true =>
    rw [named_iff] at hnamed
    simp only [List.mem_cons, List.not_mem_nil, or_false] at hnamed
    rcases hnamed with rfl | rfl | rfl | rfl | rfl | rfl | rfl | rfl | rfl | rfl | rfl | rfl | rfl | rfl <;>
      cases rev <;> exact ⟨rfl, rfl⟩

theorem encode_of_decodeHost {rev : FormatRev} {w : BitVec 11} {ops : Operands} {i : Instr}
    (hport : wordPort w = 0) (h : decodeHost rev w ops = .ok i) : encode i = (w, ops) := by
  unfold decodeHost at h
  split at h
  case h_1 n hdir =>
    cases h
    rw [(encode_decodeHostRow rev (wordAddr w) n []).1, hostReadWord_wordAddr hport hdir]
  case h_2 payload hdir =>
    cases h
    rw [(encode_decodeHostRow rev (wordAddr w) 0 payload).2, hostWriteWord_wordAddr hport hdir]
  case h_3 => cases h

theorem encode_of_decodeReceive {w : BitVec 11} {ops : Operands} {i : Instr}
    (h : decodeReceive w ops = .ok i) : encode i = (w, ops) := by
  unfold decodeReceive at h
  split at h
  case isTrue hw =>
    subst hw
    split at h <;> cases h
    rfl
  case isFalse => cases h

theorem encode_of_decodeLookup {w : BitVec 11} {ops : Operands} {i : Instr}
    (h : decodeLookup w ops = .ok i) : encode i = (w, ops) := by
  unfold decodeLookup at h
  split at h
  case isTrue hw =>
    subst hw
    split at h <;> cases h
    rfl
  case isFalse => cases h

/-- Settles O3, by the port of the word: each port's decoder inverts the encoder. -/
theorem decodedWordReencodesToItself : Obligations.DecodedWordReencodesToItself := by
  intro rev w ops i h
  refine ⟨decode_wf h, ?_⟩
  unfold decode at h
  split_ifs at h with hhost hreceive hlookup
  · exact encode_of_decodeHost hhost h
  · exact encode_of_decodeReceive h
  · exact encode_of_decodeLookup h

/-! ### One step (R56, R59) -/

theorem step_of_fetch {s u : State} {e : Event} (h : s.fetch = some (e, u)) : step s = applyEvent e u := by
  simp only [step, h]

theorem applyEvent_command {s : State} {e : Event} {w : BitVec 11} {ops : Operands} {i : Instr}
    (hcommand : eventCommand e = some (w, ops)) (hdecode : decode s.params.rev w ops = .ok i) :
    applyEvent e s = exec i s := by
  simp only [applyEvent, hcommand, runCommand, hdecode]

/-- Settles O52: the fetch leaves FORMAT_REV, and with it the decoding, as it was. -/
theorem stepRunsTheDecodedCommand : Obligations.StepRunsTheDecodedCommand := by
  refine ⟨fun s u e w ops i hfetch hcommand hdecode => ?event, fun s hidle => ?idle⟩
  case event =>
    rw [← State.fetch_params hfetch] at hdecode
    exact (step_of_fetch hfetch).trans (applyEvent_command hcommand hdecode)
  case idle => simp only [step, hidle]

/-! ### Reset (R34, R250) -/

/-- A slot file as reset leaves it has no live slot (R34). -/
theorem isSent_of_mem_replicate_free {n : Nat} {f : Frame} (h : f ∈ List.replicate n Frame.free) :
    f.isSent = true := by
  rw [List.eq_of_mem_replicate h]
  rfl

/-- An index as reset leaves it has no entry in use (R34). -/
theorem key_of_mem_replicate_empty {n : Nat} {e : IndexEntry} (h : e ∈ List.replicate n IndexEntry.empty) :
    e.key = 0xFFFFFFFF#32 := by
  rw [List.eq_of_mem_replicate h]
  rfl

/-- Settles O14: the slot file and the index are copies of one free slot and of one empty entry. -/
theorem resetValues : Obligations.ResetValues := fun _ =>
  ⟨rfl, rfl, List.length_replicate, List.length_replicate, fun _ => isSent_of_mem_replicate_free,
    fun _ => key_of_mem_replicate_empty, rfl, rfl⟩

theorem State.fetch_reset {s u : State} (h : s.fetch = some (.reset, u)) :
    ∃ k, s.resetIn = k + 1 ∧ u = { s.nextTurn with resetIn := k } := by
  rcases State.fetch_cases h with ⟨_, _, he, _⟩ | ⟨_, _, he, _⟩ | ⟨_, _, he, _⟩ | ⟨k, _, hpending, hu⟩
  · cases he
  · cases he
  · cases he
  · exact ⟨k, hpending, hu⟩

/-- Settles O15: the step is `State.resetBlock` on the state in which one Reset() less is pending. -/
theorem resetEventEmptiesTheBlock : Obligations.ResetEventEmptiesTheBlock := by
  intro s u hfetch
  obtain ⟨k, hpending, rfl⟩ := State.fetch_reset hfetch
  exact ⟨_, step_of_fetch hfetch, rfl, rfl, List.length_replicate, fun _ => isSent_of_mem_replicate_free,
    List.length_replicate, fun _ => key_of_mem_replicate_empty, rfl, rfl, rfl, rfl, rfl, rfl, rfl, rfl, rfl,
    hpending.symm⟩

/-! ### A command and the ports (R40 to R44) -/

/-- A send leaves what is pending and the answers of the other input ports as they are (R164). -/
theorem State.sendFrame_ports (s : State) (payload : List Byte) :
    (s.sendFrame payload).hostIn = s.hostIn ∧ (s.sendFrame payload).rxIn = s.rxIn ∧
    (s.sendFrame payload).lookupIn = s.lookupIn ∧ (s.sendFrame payload).resetIn = s.resetIn ∧
    (s.sendFrame payload).schedule = s.schedule ∧ (s.sendFrame payload).arbTick = s.arbTick ∧
    (s.sendFrame payload).lookupOut = s.lookupOut := by
  rcases s.sendFrame_cases payload with ⟨f, _, hsend⟩ | ⟨k, _, hsend⟩ <;> rw [hsend] <;>
    exact ⟨rfl, rfl, rfl, rfl, rfl, rfl, rfl⟩

/-- Settles O51, case by case on what a command can do: insert, take-next and a send leave the pending events, the
arbitration and the answers given as they are, and the one answer comes after them. -/
theorem commandsAnswerTheirOwnPort : Obligations.CommandsAnswerTheirOwnPort := by
  intro i s t h
  rcases exec_next_cases h with
    ⟨hi, a, rfl⟩ | ⟨payload, rfl, _, rfl⟩ | ⟨n, rfl, rfl⟩ | ⟨r, rfl, rfl⟩ | ⟨id, rfl, rfl⟩
  · refine ⟨rfl, rfl, rfl, rfl, rfl, rfl, ?_⟩
    cases i with
    | wrSendFrame | rdReceiveFrame | rxFrame | lookup => cases hi
    | _ => exact ⟨rfl, rfl, a, rfl⟩
  · obtain ⟨hhost, hrx, hlookup, hreset, horder, htick, hlookupOut⟩ := s.sendFrame_ports payload
    exact ⟨hhost, hrx, hlookup, hreset, horder, htick, s.sendFrame_rxOut payload, hlookupOut,
      _, congrArg (· ++ _) (s.sendFrame_hostOut payload)⟩
  · obtain ⟨_, _, hhost, hrx, hlookup, hreset, horder, htick, hhostOut, _, hrxOut, hlookupOut⟩ := s.takeNext_ports
    exact ⟨hhost, hrx, hlookup, hreset, horder, htick, hrxOut, hlookupOut, _, congrArg (· ++ _) hhostOut⟩
  · obtain ⟨_, _, hhost, hrx, hlookup, hreset, horder, htick, hhostOut, _, hrxOut, hlookupOut⟩ := s.insert_ports r
    exact ⟨hhost, hrx, hlookup, hreset, horder, htick, hhostOut, hlookupOut, _, congrArg (· ++ _) hrxOut⟩
  · exact ⟨rfl, rfl, rfl, rfl, rfl, rfl, rfl, rfl, _, rfl⟩

/-! ### The operands that RX_FRAME drops (R131, R225) -/

theorem State.insert_invalidId (s : State) {r : RxOperands} (h : validId r.canId = false) :
    s.insert r = (s, .invalidId) := by
  simp only [State.insert, h, Bool.false_eq_true, if_false]

theorem State.insert_invalidLength (s : State) {r : RxOperands} (hid : validId r.canId = true)
    (hlength : validLength r.dataLength = false) : s.insert r = (s, .invalidLength) := by
  simp only [State.insert, hid, hlength, Bool.false_eq_true, if_true, if_false]

theorem exec_rxFrame_of_insert {s t : State} {r : RxOperands} {o : RxOutcome} (h : s.insert r = (t, o)) :
    exec (.rxFrame r) s = .next (t.driveRx o) := by
  simp only [exec, execRxFrame, h]

/-- Settles O23: insert gives the state back, and only its outcome is driven. -/
theorem rxInvalidOperandsAreDropped : Obligations.RxInvalidOperandsAreDropped := by
  refine fun s r => ⟨fun hid => ?id, fun hid hlength => ?length⟩
  case id =>
    have hinvalid : validId r.canId = false := by
      rw [Bool.eq_false_iff, ne_eq, validId_iff]
      rintro ⟨hle, hrejected, hnotReady⟩
      rcases hid with hgt | heq | heq
      · exact hgt.not_ge hle
      · exact hrejected heq
      · exact hnotReady heq
    exact exec_rxFrame_of_insert (s.insert_invalidId hinvalid)
  case length =>
    have hlong : validLength r.dataLength = false := by
      rw [Bool.eq_false_iff, ne_eq, validLength_iff]
      exact hlength.not_ge
    exact exec_rxFrame_of_insert (s.insert_invalidLength ((validId_iff _).2 hid) hlong)

/-! ### The rows that an instance does not have (R79) -/

/-- Settles O49: each row's condition, the revision or that no row names the address, is what its meaning checks. -/
theorem rowsAreAbsentWhereTheirConditionFails : Obligations.RowsAreAbsentWhereTheirConditionFails := by
  refine fun s n payload => ⟨fun hrev => ?rev1, fun hrev => ?rev2, fun addr haddr => ?named⟩
  case rev1 => simp only [exec, execWrSendFrame, execRdSendStatus, hrev, and_self]
  case rev2 => simp only [exec, execWrUnclaimed30, execRdUnclaimed30, hrev, and_self]
  case named =>
    have hnamed : named addr = true := (named_iff addr).2 haddr
    exact ⟨if_pos hnamed, if_pos hnamed⟩

end Sys2Proof.Machine
end
